-- ==== Sys2Proof/Word.lean ====
section
/-! DEFINITION. The words of the CORE: bytes, nibbles, 12-bit addresses and 16-bit words (00_scope.md section 6.1: all values are unsigned). -/

namespace Sys2Proof

/-- A byte: a general register, a timer, a memory cell (rules R10, R15, R16, R30). -/
abbrev Byte := BitVec 8

/-- A 16-bit word: `pc`, `i`, a stack slot, an instruction word (rules R12, R18, R19, R50). -/
abbrev Word := BitVec 16

/-- A nibble: a register number `x` or `y`, a key number, a sprite height `n` (rule R51). -/
abbrev Nibble := BitVec 4

/-- The 12-bit immediate `nnn` (rule R52). -/
abbrev Imm12 := BitVec 12

end Sys2Proof
end

