-- ==== Sys2Proof/Syntax.lean ====
section
/-! DEFINITION. The instructions of the CORE: one constructor per row of spec/opcode_table.json, in the table's order (rule R55). -/

namespace Sys2Proof

/-- The 34 instructions with semantics and the faulting form `0NNN`.
`x` and `y` are register numbers, `nn` a byte immediate, `nnn` a 12-bit immediate, `n` a sprite height (rules R51, R52). -/
inductive Instr where
  /-- clear-screen, `00E0` (rule R130) -/
  | cls
  /-- return, `00EE` (rule R90) -/
  | ret
  /-- jump addr, `1NNN` (rule R91) -/
  | jp (nnn : Imm12)
  /-- call addr, `2NNN` (rule R92) -/
  | call (nnn : Imm12)
  /-- skip-if-equal Vx, imm, `3XNN` (rule R93) -/
  | seImm (x : Nibble) (nn : Byte)
  /-- skip-if-not-equal Vx, imm, `4XNN` (rule R94) -/
  | sneImm (x : Nibble) (nn : Byte)
  /-- skip-if-registers-equal Vx, Vy, `5XY0` (rule R95) -/
  | seReg (x y : Nibble)
  /-- load Vx, imm, `6XNN` (rule R101) -/
  | ldImm (x : Nibble) (nn : Byte)
  /-- add Vx, imm, `7XNN` (rule R102) -/
  | addImm (x : Nibble) (nn : Byte)
  /-- load Vx, Vy, `8XY0` (rule R103) -/
  | ldReg (x y : Nibble)
  /-- or Vx, Vy, `8XY1` (rule R104) -/
  | orReg (x y : Nibble)
  /-- and Vx, Vy, `8XY2` (rule R105) -/
  | andReg (x y : Nibble)
  /-- xor Vx, Vy, `8XY3` (rule R106) -/
  | xorReg (x y : Nibble)
  /-- add Vx, Vy, `8XY4` (rule R107) -/
  | addReg (x y : Nibble)
  /-- sub Vx, Vy, `8XY5` (rule R108) -/
  | subReg (x y : Nibble)
  /-- shift-right Vx, Vy, `8XY6` (rule R109); `y` is a don't-care field (rule R57) -/
  | shr (x y : Nibble)
  /-- subn Vx, Vy, `8XY7` (rule R110) -/
  | subnReg (x y : Nibble)
  /-- shift-left Vx, Vy, `8XYE` (rule R111); `y` is a don't-care field (rule R57) -/
  | shl (x y : Nibble)
  /-- skip-if-registers-not-equal Vx, Vy, `9XY0` (rule R96) -/
  | sneReg (x y : Nibble)
  /-- load I, addr, `ANNN` (rule R120) -/
  | ldI (nnn : Imm12)
  /-- jump-plus-offset addr, `BNNN` (rule R97) -/
  | jpV0 (nnn : Imm12)
  /-- random Vx, mask, `CXNN` (rule R112) -/
  | rnd (x : Nibble) (nn : Byte)
  /-- draw Vx, Vy, n, `DXYN` (rule R131) -/
  | drw (x y n : Nibble)
  /-- skip-if-key-pressed Vx, `EX9E` (rule R140) -/
  | skp (x : Nibble)
  /-- skip-if-key-not-pressed Vx, `EXA1` (rule R141) -/
  | sknp (x : Nibble)
  /-- load Vx, DT, `FX07` (rule R142) -/
  | ldVxDt (x : Nibble)
  /-- wait-for-key Vx, `FX0A` (rule R143) -/
  | ldVxK (x : Nibble)
  /-- load DT, Vx, `FX15` (rule R144) -/
  | ldDtVx (x : Nibble)
  /-- load ST, Vx, `FX18` (rule R145) -/
  | ldStVx (x : Nibble)
  /-- add I, Vx, `FX1E` (rule R121) -/
  | addI (x : Nibble)
  /-- load I, font(Vx), `FX29` (rule R122) -/
  | ldF (x : Nibble)
  /-- store-BCD Vx, `FX33` (rule R123) -/
  | ldB (x : Nibble)
  /-- store-registers Vx, `FX55` (rule R124) -/
  | storeRegs (x : Nibble)
  /-- load-registers Vx, `FX65` (rule R125) -/
  | loadRegs (x : Nibble)
  /-- the form `0NNN` other than `00E0` and `00EE`, which only faults (rule R58) -/
  | sys (nnn : Imm12)
  deriving DecidableEq, Repr

end Sys2Proof
end

