-- ==== Sys2Proof/Config.lean ====
section
/-! DEFINITION. What stands outside the machine. The one free value of this hardware is the random input of the step (rule R112, U9); every other parameter of rule R4 is fixed by the spec and stands where it is used, and TIMER_HZ and the instruction rate are read by no rule (rule R177). -/

namespace Sys2Proof

/-- `Rand()`, the 8-bit random input (rule R112): the byte the `k`-th execution of the random instruction receives.
It has no body, so nothing can be proved about its value; the argument only makes each execution's byte its own
(log entries 1 and 2). -/
opaque Config.randByte : Nat → Byte

end Sys2Proof
end

