-- ==== Sys2Proof/Machine/Font.lean ====
section
/-! DEFINITION. The parameter FONT_TABLE (rules R4, R32; U24 of 93_implementation_defined.md) and the spec's default for it. -/

namespace Sys2Proof.Machine

/-- FONT_TABLE: the 80 bytes of the font region, 16 glyphs of 5 bytes (rule R32). -/
abbrev FontTable := Vector Byte 80

/-- The glyphs of digits 0 to 3 (rule R32). -/
def fontDigits0to3 : List Byte :=
  [0xF0#8, 0x90#8, 0x90#8, 0x90#8, 0xF0#8, 0x20#8, 0x60#8, 0x20#8, 0x20#8, 0x70#8,
   0xF0#8, 0x10#8, 0xF0#8, 0x80#8, 0xF0#8, 0xF0#8, 0x10#8, 0xF0#8, 0x10#8, 0xF0#8]

/-- The glyphs of digits 4 to 7 (rule R32). -/
def fontDigits4to7 : List Byte :=
  [0x90#8, 0x90#8, 0xF0#8, 0x10#8, 0x10#8, 0xF0#8, 0x80#8, 0xF0#8, 0x10#8, 0xF0#8,
   0xF0#8, 0x80#8, 0xF0#8, 0x90#8, 0xF0#8, 0xF0#8, 0x10#8, 0x20#8, 0x40#8, 0x40#8]

/-- The glyphs of digits 8 to B (rule R32). -/
def fontDigits8toB : List Byte :=
  [0xF0#8, 0x90#8, 0xF0#8, 0x90#8, 0xF0#8, 0xF0#8, 0x90#8, 0xF0#8, 0x10#8, 0xF0#8,
   0xF0#8, 0x90#8, 0xF0#8, 0x90#8, 0x90#8, 0xE0#8, 0x90#8, 0xE0#8, 0x90#8, 0xE0#8]

/-- The glyphs of digits C to F (rule R32). -/
def fontDigitsCtoF : List Byte :=
  [0xF0#8, 0x80#8, 0x80#8, 0x80#8, 0xF0#8, 0xE0#8, 0x90#8, 0x90#8, 0x90#8, 0xE0#8,
   0xF0#8, 0x80#8, 0xF0#8, 0x80#8, 0xF0#8, 0xF0#8, 0x80#8, 0xF0#8, 0x80#8, 0x80#8]

/-- The default of FONT_TABLE: the table of rule R32 (D26, log entry 6). -/
def defaultFontTable : FontTable :=
  Vector.mk (fontDigits0to3 ++ (fontDigits4to7 ++ (fontDigits8toB ++ fontDigitsCtoF))).toArray (by decide)

end Sys2Proof.Machine
end

