-- ==== Sys2Proof/Machine/State.lean ====
section
/-! DEFINITION. The state of the CORE (10_state.md), the reasons a step can stop, and the state after reset (rule R23). -/

namespace Sys2Proof.Machine

/-- Main memory: the bytes that differ from their reset contents, by rising address (rules R30, R23; log entry 10). -/
abbrev Memory := List Host.Cell

/-- The display buffer: `disp[y][x]`, row 0 at the top, column 0 at the left; true is lit (rule R20 (c)). -/
abbrev Display := Vector (Vector Bool 64) 32

/-- The whole state of the CORE (10_state.md section 1), the model's own counter of random bytes, and
the parameter FONT_TABLE. -/
structure State where
  /-- `v[0..15]`; `v[0xF]` doubles as the flag register (rules R10, R13) -/
  v : Vector Byte 16
  /-- `i`, the memory address pointer (rule R18) -/
  i : Word
  /-- the program counter (rule R12) -/
  pc : Word
  /-- the stack depth, 0 to 16 (rule R14) -/
  sp : Fin 17
  /-- the sixteen return address slots (rule R19) -/
  stack : Vector Word 16
  /-- the delay timer (rule R15) -/
  dt : Byte
  /-- the sound timer (rule R16) -/
  st : Byte
  /-- main memory (rule R30) -/
  mem : Memory
  /-- the display buffer (rule R20 (c)) -/
  disp : Display
  /-- the keypad, true is pressed (rule R20 (d)) -/
  keys : Vector Bool 16
  /-- the awaiting-key flag (rule R17) -/
  wait : Bool
  /-- the destination register of the pending key wait (rule R17) -/
  waitX : Nibble
  /-- the MODEL's own: how many random bytes have been taken (rule R112; log entries 1 and 2) -/
  randIdx : Nat
  /-- the machine's parameter FONT_TABLE, which no step and no event writes (rules R4, R32; log entry 19) -/
  font : FontTable
  deriving DecidableEq, Repr

/-- The six faults of the CORE (rule R150). A step that raises one ends with it and changes nothing (rule R74).
Each is SAFE: it is the outcome the spec itself names, not a stop of the model's own. -/
inductive Fault where
  /-- the fetched word names no instruction; raised by the step after a fetch and by SYS (rules R56, R58, R151). Safe. -/
  | unknownOpcode (word pc : Word)
  /-- a call with sixteen return addresses on the stack; raised by CALL (rule R152). Safe. -/
  | stackOverflow
  /-- a return with an empty stack; raised by RET (rule R153). Safe. -/
  | stackUnderflow
  /-- a fetch with `pc` above 0xFFE; raised by the step (rules R71, R154). Safe. -/
  | outOfBoundsFetch (pc : Word)
  /-- a data range with an address above 0xFFF; raised by DRW, LD B, LD [I] and LD Vx,[I] (rules R37, R155). Safe. -/
  | outOfBoundsAccess (addr : Word)
  /-- a store range that meets the font region; raised by LD B and LD [I] (rules R38, R156). Safe. -/
  | fontRegionWrite (addr : Word)
  deriving DecidableEq, Repr

/-- What the model has no transition for. No `step` answers any of these; the last three are host errors that
rules R77 and R44 leave without a transition. -/
inductive Refusal where
  /-- an instruction whose meaning is not written yet; raised by an arm of exec, and by none of them now. Safe. -/
  | notModelled (mnemonic : String)
  /-- `set_key` with an index of 16 or more; raised by the host event set_key (rule R77, U13). Safe. -/
  | keyIndexOutOfRange (index : Nat)
  /-- an image of more than 3584 bytes; raised by the host event load_image (rule R44, U15). Safe. -/
  | imageTooLong (length : Nat)
  /-- an image loaded a second time or after the first step; raised by the host event load_image (rules R44, R175, U15). Safe. -/
  | loadNotAllowed
  deriving DecidableEq, Repr

/-- The state after the `reset` event of a machine whose FONT_TABLE is `table` (rule R23); `randIdx` is the model's
own (log entry 2). The table is the reset contents of the font region, so memory lists nothing. -/
def State.resetWith (table : FontTable) : State where
  v := Vector.replicate 16 0x00#8
  i := 0x0000#16
  pc := 0x0200#16
  sp := 0
  stack := Vector.replicate 16 0x0000#16
  dt := 0x00#8
  st := 0x00#8
  mem := []
  disp := Vector.replicate 32 (Vector.replicate 64 false)
  keys := Vector.replicate 16 false
  wait := false
  waitX := 0x0#4
  randIdx := 0
  font := table

/-- The state after reset of the machine with the default FONT_TABLE (rules R23, R32). -/
def State.reset : State := State.resetWith defaultFontTable

/-- What one step answers. -/
abbrev StepOutcome := Host.Outcome State Fault Refusal

end Sys2Proof.Machine
end

