-- ==== Sys2Proof/Machine/Memory.lean ====
section
/-! DEFINITION. Main memory (20_memory.md): the reset contents, a function of the machine's font table, reading and writing a byte, and the canonical form of the list that holds it. -/

namespace Sys2Proof.Machine

/-- What a byte no write has changed reads as: FONT_TABLE in 0x000 to 0x04F, 0x00 elsewhere (rules R23, R31).
Only addresses 0x000 to 0xFFF exist; no meaning reads another (rule R37, log entry 11). -/
def resetByte (font : FontTable) (a : Nat) : Byte := (font[a]?).getD 0x00#8

/-- `mem[a]`: a read has no side effect (rule R39). -/
def Memory.read (font : FontTable) (m : Memory) (a : Nat) : Byte :=
  match m with
  | [] => resetByte font a
  | (k, b) :: rest => if k = a then b else Memory.read font rest a

/-- A cell put at its place among cells of rising address. -/
def Memory.place (a : Nat) (b : Byte) (m : Memory) : Memory :=
  match m with
  | [] => [(a, b)]
  | (k, c) :: rest => if a < k then (a, b) :: (k, c) :: rest else (k, c) :: Memory.place a b rest

/-- `mem[a] <- b` (rule R39: a write changes only the byte written). The form stays canonical: a byte that again
reads as at reset is not listed. -/
def Memory.write (font : FontTable) (m : Memory) (a : Nat) (b : Byte) : Memory :=
  if b = resetByte font a then m.filter (fun c => c.1 != a)
  else Memory.place a b (m.filter (fun c => c.1 != a))

/-- `MemWrite(a + k, 1, bs[k])` for every `k` in order (00_scope.md section 6.3). -/
def Memory.writeBytes (font : FontTable) (m : Memory) (a : Nat) (bs : List Byte) : Memory :=
  match bs with
  | [] => m
  | b :: rest => Memory.writeBytes font (m.write font a b) (a + 1) rest

/-- Addresses strictly rising, all above `lo - 1`. -/
def Memory.risingFrom (lo : Nat) (m : Memory) : Bool :=
  match m with
  | [] => true
  | (k, _) :: rest => decide (lo ≤ k) && Memory.risingFrom (k + 1) rest

/-- The canonical form: strictly rising addresses of the space 0x000 to 0xFFF, and no listed byte equal to what an
unlisted address reads as. -/
def Memory.wf (font : FontTable) (m : Memory) : Bool :=
  m.risingFrom 0 && m.all (fun c => decide (c.1 ≤ 0xFFF) && c.2 != resetByte font c.1)

end Sys2Proof.Machine
end

