-- ==== Sys2Proof/Machine/Ops.lean ====
section
/-! DEFINITION. The named operations over the state that the meanings share: register accessors, the program counter, the call stack, the keypad, instruction fetch, and raising a fault. -/

namespace Sys2Proof.Machine

/-! ### Raising a fault, and ending a meaning -/

/-- `raise <Fault>(info)`: the step ends with the fault and no state changes (rule R74). Control goes nowhere inside
the CORE: no handler, no vector, no saved register, no mode, no latch (rule R159). There is no return from it and
nothing to restore (rule R160); what the host may do next is `stop` or `reset`. -/
def raise (f : Fault) : StepOutcome := .fault f

/-- A meaning that made its pre-checks: the next state, or the fault of the pre-check that failed (rule R74). -/
def finish (r : Except Fault State) : StepOutcome :=
  match r with
  | .ok s => .next s
  | .error f => raise f

/-! ### Registers (rules R10 to R18) -/

/-- `v[x]`. -/
def State.getV (s : State) (x : Nibble) : Byte := s.v[x.toNat]'x.isLt

/-- `v[x] <- b`. -/
def State.setV (s : State) (x : Nibble) (b : Byte) : State := { s with v := s.v.set x.toNat b x.isLt }

/-- `pc <- a`. -/
def State.setPc (s : State) (a : Word) : State := { s with pc := a }

/-- `i <- a`. -/
def State.setI (s : State) (a : Word) : State := { s with i := a }

/-- `dt <- b`. -/
def State.setDt (s : State) (b : Byte) : State := { s with dt := b }

/-- `st <- b`. -/
def State.setSt (s : State) (b : Byte) : State := { s with st := b }

/-- `mem <- m`. -/
def State.setMem (s : State) (m : Memory) : State := { s with mem := m }

/-- `disp <- d`. -/
def State.setDisp (s : State) (d : Display) : State := { s with disp := d }

/-- The key-wait micro-state: `wait <- 1; wait_x <- x` (rules R17, R143). -/
def State.startWait (s : State) (x : Nibble) : State := { s with wait := true, waitX := x }

/-- `wait <- 0`; `wait_x` keeps its value and is no longer read (rules R17, R75). -/
def State.endWait (s : State) : State := { s with wait := false }

/-- One random byte has been taken (log entry 1). -/
def State.countRand (s : State) : State := { s with randIdx := s.randIdx + 1 }

/-! ### The program counter (rules R12, R72) -/

/-- `pc <- pc + 2`: the advance of the fetch, a taken skip, the retirement of a key wait. -/
def State.advance (s : State) : State := s.setPc (s.pc + 2#16)

/-- `pc0`, the address of the instruction being executed: a meaning sees `pc = pc0 + 2` (rule R72). -/
def State.pc0 (s : State) : Word := s.pc - 2#16

/-- A conditional skip: `if c then pc <- pc + 2` (41_control_transfer.md). -/
def State.skipIf (s : State) (c : Bool) : State := if c then s.advance else s

/-! ### The call stack (rules R14, R19) -/

/-- Push: `stack[sp] <- value; sp <- sp + 1`; StackOverflow when `sp = 16` (rules R92, R152). -/
def State.push (s : State) (a : Word) : Except Fault State :=
  if h : s.sp.val < 16 then
    .ok { s with stack := s.stack.set s.sp.val a h, sp := ⟨s.sp.val + 1, by omega⟩ }
  else .error .stackOverflow

/-- Pop into `pc`: `sp <- sp - 1; pc <- stack[sp]`; the slot keeps its value (rule R19); StackUnderflow when
`sp = 0` (rules R90, R153). -/
def State.popPc (s : State) : Except Fault State :=
  if h : 0 < s.sp.val then
    .ok { s with pc := s.stack[s.sp.val - 1]'(by omega), sp := ⟨s.sp.val - 1, by omega⟩ }
  else .error .stackUnderflow

/-! ### The keypad (rule R20 (d)) -/

/-- `keys[k]`. -/
def State.key (s : State) (k : Nibble) : Bool := s.keys[k.toNat]'k.isLt

/-- The key numbers 0 to 15, rising. -/
def keyNumbers : List Nibble :=
  [0x0#4, 0x1#4, 0x2#4, 0x3#4, 0x4#4, 0x5#4, 0x6#4, 0x7#4, 0x8#4, 0x9#4, 0xA#4, 0xB#4, 0xC#4, 0xD#4, 0xE#4, 0xF#4]

/-- The least `k` with `keys[k] = 1`, if any key is pressed (rules R75, R143). -/
def State.leastKey (s : State) : Option Nibble := keyNumbers.find? s.key

/-! ### Main memory (20_memory.md) -/

/-- `mem[a]` (rule R39). -/
def State.read (s : State) (a : Nat) : Byte := s.mem.read s.font a

/-- `mem[a + k] <- bs[k]` for every `k` in order. -/
def State.writeMem (s : State) (a : Nat) (bs : List Byte) : State := s.setMem (s.mem.writeBytes s.font a bs)

/-! ### Instruction fetch (rules R71, R72) -/

/-- `mem[a] ++ mem[a+1]`, the word at `a`, big-endian (rule R33). -/
def State.word (s : State) (a : Nat) : Word := s.read a ++ s.read (a + 1)

/-- The fetch of the word at `pc`; OutOfBoundsFetch when `pc > 0xFFE` (rules R71, R154). -/
def State.fetch (s : State) : Except Fault Word :=
  if s.pc.toNat ≤ 0xFFE then .ok (s.word s.pc.toNat) else .error (.outOfBoundsFetch s.pc)

end Sys2Proof.Machine
end

