-- ==== Sys2Proof/Machine/Operands.lean ====
section
/-! DEFINITION. Operand forms: the extension of immediates and bytes, the digit in a register's low nibble, and the one addressing mode for data, `i + k` with its pre-checks (rules R37, R38, R52; 43_index_memory.md). -/

namespace Sys2Proof.Machine

/-- `zext_16(nnn)` (rule R52). -/
def addr12 (nnn : Imm12) : Word := nnn.setWidth 16

/-- `zext_16(b)` of a byte operand. -/
def byteToWord (b : Byte) : Word := b.setWidth 16

/-- `zext_8(k)` of a key index. -/
def nibbleToByte (k : Nibble) : Byte := k.setWidth 8

/-- `b & 0x0F`: the hexadecimal digit held in a byte (rules R122, R140, R141). -/
def lowNibble (b : Byte) : Nibble := b.extractLsb' 0 4

/-- FONT_BASE + 5 * digit (rule R32). -/
def fontAddr (d : Nibble) : Word := 5#16 * d.setWidth 16

/-- The base of a data range: the effective address of byte `k` is `base + k`, over the integers (43_index_memory.md). -/
def State.base (s : State) : Nat := s.i.toNat

/-- The lowest out-of-range address of a range that starts at `i`: `max(i, 0x1000)` (rule R37). -/
def State.lowestOutOfRange (s : State) : Word := BitVec.ofNat 16 (max s.i.toNat 0x1000)

/-- The bounds pre-check of a range of `len` bytes at `i`: OutOfBoundsAccess when its last address is above 0xFFF;
an empty range is never out of bounds (rules R37, R155). -/
def State.checkAccess (s : State) (len : Nat) : Except Fault Unit :=
  if 0 < len ∧ s.base + len > 0x1000 then .error (.outOfBoundsAccess s.lowestOutOfRange) else .ok ()

/-- The font pre-check of a store of `len` bytes at `i`: FontRegionWrite when the range meets 0x000 to 0x04F
(rules R38, R156). -/
def State.checkFont (s : State) (len : Nat) : Except Fault Unit :=
  if 0 < len ∧ s.base ≤ 0x04F then .error (.fontRegionWrite s.i) else .ok ()

/-- The pre-checks of a store, bounds first (rules R38, R158). -/
def State.checkStore (s : State) (len : Nat) : Except Fault Unit :=
  match s.checkAccess len with
  | .error f => .error f
  | .ok _ => s.checkFont len

/-- Store the bytes at `i`, `i+1`, ... after the pre-checks; on a fault no byte is written (rules R37, R38, R74). -/
def State.storeBytes (s : State) (bs : List Byte) : Except Fault State :=
  match s.checkStore bs.length with
  | .error f => .error f
  | .ok _ => .ok (s.writeMem s.base bs)

/-- `v[0], ..., v[x]` (rule R124). -/
def State.regsUpTo (s : State) (x : Nibble) : List Byte := s.v.toList.take (x.toNat + 1)

/-- `v[k] <- mem[i + k]` for `k` in 0 to `x`, the other registers unchanged (rule R125). -/
def State.loadRegsUpTo (s : State) (x : Nibble) : State :=
  { s with v := Vector.ofFn fun k : Fin 16 => if k.val ≤ x.toNat then s.read (s.base + k.val) else s.v[k] }

/-- The three decimal digits of a byte, most significant first (rule R123). -/
def bcdDigits (a : Byte) : List Byte := [a / 100#8, (a / 10#8) % 10#8, a % 10#8]

end Sys2Proof.Machine
end

