-- ==== Sys2Proof/Machine/Flags.lean ====
section
/-! DEFINITION. The flag values written to `v[0xF]` (rules R13, R100), and the two orders in which an instruction writes its result and its flag. -/

namespace Sys2Proof.Machine

/-- The flag register `v[0xF]` (rule R13). -/
def flagReg : Nibble := 0xF#4

/-- A flag as the byte 0x00 or 0x01 (rule R100). -/
def flagByte (c : Bool) : Byte := if c then 0x01#8 else 0x00#8

/-- Carry out of an 8-bit sum: `a + b > 255` over the integers (rule R107). -/
def carryOut (a b : Byte) : Bool := decide (a.toNat + b.toNat > 255)

/-- Not-borrow of `a - b`: `a >= b`, unsigned (rules R108, R110). -/
def notBorrow (a b : Byte) : Bool := decide (a.toNat ≥ b.toNat)

/-- Bit 0, the bit a right shift by one puts out (rule R109). -/
def bit0 (a : Byte) : Bool := a.getLsbD 0

/-- Bit 7, the bit a left shift by one puts out (rule R111). -/
def bit7 (a : Byte) : Bool := a.getLsbD 7

/-- add, sub, subn: the result first, the flag second, so that with `x = 0xF` the flag remains (rule R100). -/
def State.resultThenFlag (s : State) (x : Nibble) (r : Byte) (c : Bool) : State :=
  (s.setV x r).setV flagReg (flagByte c)

/-- shifts: the flag first, the result second, so that with `x = 0xF` the result remains (rule R100). -/
def State.flagThenResult (s : State) (x : Nibble) (r : Byte) (c : Bool) : State :=
  (s.setV flagReg (flagByte c)).setV x r

end Sys2Proof.Machine
end

