-- ==== Sys2Proof/Machine/Alu.lean ====
section
/-! DEFINITION. Register load, arithmetic, logic, shift and random instructions (42_load_alu_random.md). All operands are sampled from the state before the instruction (rule R100); none can fault. -/

namespace Sys2Proof.Machine

/-- load Vx, imm (rule R101). -/
def execLdImm (x : Nibble) (nn : Byte) (s : State) : StepOutcome := .next (s.setV x nn)

/-- add Vx, imm: wrapping, no flag (rule R102). -/
def execAddImm (x : Nibble) (nn : Byte) (s : State) : StepOutcome := .next (s.setV x (s.getV x + nn))

/-- load Vx, Vy (rule R103). -/
def execLdReg (x y : Nibble) (s : State) : StepOutcome := .next (s.setV x (s.getV y))

/-- or Vx, Vy: no flag (rule R104). -/
def execOrReg (x y : Nibble) (s : State) : StepOutcome := .next (s.setV x (s.getV x ||| s.getV y))

/-- and Vx, Vy: no flag (rule R105). -/
def execAndReg (x y : Nibble) (s : State) : StepOutcome := .next (s.setV x (s.getV x &&& s.getV y))

/-- xor Vx, Vy: no flag (rule R106). -/
def execXorReg (x y : Nibble) (s : State) : StepOutcome := .next (s.setV x (s.getV x ^^^ s.getV y))

/-- add Vx, Vy (rule R107). -/
def execAddReg (x y : Nibble) (s : State) : StepOutcome :=
  .next (s.resultThenFlag x (s.getV x + s.getV y) (carryOut (s.getV x) (s.getV y)))

/-- sub Vx, Vy (rule R108). -/
def execSubReg (x y : Nibble) (s : State) : StepOutcome :=
  .next (s.resultThenFlag x (s.getV x - s.getV y) (notBorrow (s.getV x) (s.getV y)))

/-- shift-right Vx: `y` is ignored (rules R57, R109). -/
def execShr (x _y : Nibble) (s : State) : StepOutcome :=
  .next (s.flagThenResult x (s.getV x >>> 1) (bit0 (s.getV x)))

/-- subn Vx, Vy (rule R110). -/
def execSubnReg (x y : Nibble) (s : State) : StepOutcome :=
  .next (s.resultThenFlag x (s.getV y - s.getV x) (notBorrow (s.getV y) (s.getV x)))

/-- shift-left Vx: `y` is ignored (rules R57, R111). -/
def execShl (x _y : Nibble) (s : State) : StepOutcome :=
  .next (s.flagThenResult x (s.getV x <<< 1) (bit7 (s.getV x)))

/-- `v[x] <- r & nn` for the step's random input `r` (rule R112). -/
def State.maskedRandom (s : State) (x : Nibble) (nn r : Byte) : State := (s.setV x (r &&& nn)).countRand

/-- random Vx, mask: the input is a free value, one fresh byte per execution (rule R112, U9; log entry 1). -/
def execRnd (x : Nibble) (nn : Byte) (s : State) : StepOutcome :=
  .next (s.maskedRandom x nn (Config.randByte s.randIdx))

end Sys2Proof.Machine
end

