-- ==== Sys2Proof/Machine/Control.lean ====
section
/-! DEFINITION. Control transfer (41_control_transfer.md), and the form 0NNN (rule R58). In every meaning `pc` is already `pc0 + 2` (rule R72). -/

namespace Sys2Proof.Machine

/-- return (rule R90). -/
def execRet (s : State) : StepOutcome := finish s.popPc

/-- jump addr (rule R91). -/
def execJp (nnn : Imm12) (s : State) : StepOutcome := .next (s.setPc (addr12 nnn))

/-- call addr: pushes `pc0 + 2` (rule R92). -/
def execCall (nnn : Imm12) (s : State) : StepOutcome :=
  match s.push s.pc with
  | .error f => raise f
  | .ok t => .next (t.setPc (addr12 nnn))

/-- skip-if-equal Vx, imm (rule R93). -/
def execSeImm (x : Nibble) (nn : Byte) (s : State) : StepOutcome := .next (s.skipIf (s.getV x == nn))

/-- skip-if-not-equal Vx, imm (rule R94). -/
def execSneImm (x : Nibble) (nn : Byte) (s : State) : StepOutcome := .next (s.skipIf (s.getV x != nn))

/-- skip-if-registers-equal Vx, Vy (rule R95). -/
def execSeReg (x y : Nibble) (s : State) : StepOutcome := .next (s.skipIf (s.getV x == s.getV y))

/-- skip-if-registers-not-equal Vx, Vy (rule R96). -/
def execSneReg (x y : Nibble) (s : State) : StepOutcome := .next (s.skipIf (s.getV x != s.getV y))

/-- jump-plus-offset addr: a 16-bit sum, not cut to 12 bits (rule R97). -/
def execJpV0 (nnn : Imm12) (s : State) : StepOutcome :=
  .next (s.setPc (addr12 nnn + byteToWord (s.getV 0x0#4)))

/-- The form `0NNN`: UnknownOpcode with the word and `pc0`, always (rules R58, R151). -/
def execSys (nnn : Imm12) (s : State) : StepOutcome := raise (.unknownOpcode (addr12 nnn) s.pc0)

end Sys2Proof.Machine
end

