-- ==== Sys2Proof/Machine/Display.lean ====
section
/-! DEFINITION. Display instructions (44_display.md): clear-screen and the XOR-blit sprite engine, its loops as rule R131 writes them. -/

namespace Sys2Proof.Machine

/-- `disp[y][x]`. -/
def Display.get (d : Display) (y : Fin 32) (x : Fin 64) : Bool := (d[y])[x]

/-- `disp[y][x] <- disp[y][x] ^ 1`. -/
def Display.flip (d : Display) (y : Fin 32) (x : Fin 64) : Display := d.set y ((d[y]).set x (!(Display.get d y x)))

/-- All pixels 0 (rule R130). -/
def clearDisplay : Display := Vector.replicate 32 (Vector.replicate 64 false)

/-- A display being drawn on, and whether a lit pixel has gone off so far (`coll` of rule R131). -/
abbrev Canvas := Display × Bool

/-- One set sprite pixel: collision if the pixel was lit, then exclusive or (rule R131). -/
def xorPixel (y : Fin 32) (x : Fin 64) (c : Canvas) : Canvas :=
  (Display.flip c.1 y x, c.2 || Display.get c.1 y x)

/-- The column of sprite bit `c` of a sprite that starts at column `x0`: columns wrap per pixel (rule R131, D16). -/
def spriteColumn (x0 c : Nat) : Fin 64 := ⟨(x0 + c) % 64, Nat.mod_lt _ (by decide)⟩

/-- The eight pixels of a sprite row, bit 7 leftmost (rule R131). -/
def drawRow (b : Byte) (x0 : Nat) (y : Fin 32) (cv : Canvas) : Canvas :=
  (List.range 8).foldl (fun acc c => if b.getLsbD (7 - c) then xorPixel y (spriteColumn x0 c) acc else acc) cv

/-- The `n` rows of a sprite whose row `r` is the byte `rows r`; rows below the bottom edge are dropped
(rule R131, D15). -/
def drawRows (rows : Nat → Byte) (x0 y0 n : Nat) (cv : Canvas) : Canvas :=
  (List.range n).foldl (fun acc r => if h : y0 + r < 32 then drawRow (rows r) x0 ⟨y0 + r, h⟩ acc else acc) cv

/-- The column a draw starts at: `v[x] mod 64` (rule R131). -/
def State.drawX (s : State) (x : Nibble) : Nat := (s.getV x).toNat % 64

/-- The row a draw starts at: `v[y] mod 32` (rule R131). -/
def State.drawY (s : State) (y : Nibble) : Nat := (s.getV y).toNat % 32

/-- Sprite row `r`: the byte at `i + r` (rule R131). -/
def State.spriteRow (s : State) (r : Nat) : Byte := s.read (s.base + r)

/-- The display and the collision flag after drawing `n` sprite rows (rule R131). -/
def State.drawn (s : State) (x y n : Nibble) : Canvas :=
  drawRows s.spriteRow (s.drawX x) (s.drawY y) n.toNat (s.disp, false)

/-- clear-screen: `v[0xF]` unchanged (rule R130). -/
def execCls (s : State) : StepOutcome := .next (s.setDisp clearDisplay)

/-- draw Vx, Vy, n: the bounds of all `n` bytes are checked first; the collision flag is written last (rule R131). -/
def execDrw (x y n : Nibble) (s : State) : StepOutcome :=
  match s.checkAccess n.toNat with
  | .error f => raise f
  | .ok _ => .next ((s.setDisp (s.drawn x y n).1).setV flagReg (flagByte (s.drawn x y n).2))

end Sys2Proof.Machine
end

