-- ==== Sys2Proof/Machine/Index.lean ====
section
/-! DEFINITION. Index register and memory instructions (43_index_memory.md). The base register `i` is never changed by a memory access. -/

namespace Sys2Proof.Machine

/-- load I, addr (rule R120). -/
def execLdI (nnn : Imm12) (s : State) : StepOutcome := .next (s.setI (addr12 nnn))

/-- add I, Vx: mod 65536, no flag (rule R121). -/
def execAddI (x : Nibble) (s : State) : StepOutcome := .next (s.setI (s.i + byteToWord (s.getV x)))

/-- load I, font(Vx) (rule R122). -/
def execLdF (x : Nibble) (s : State) : StepOutcome := .next (s.setI (fontAddr (lowNibble (s.getV x))))

/-- store-BCD Vx (rule R123). -/
def execLdB (x : Nibble) (s : State) : StepOutcome := finish (s.storeBytes (bcdDigits (s.getV x)))

/-- store-registers Vx (rule R124). -/
def execStoreRegs (x : Nibble) (s : State) : StepOutcome := finish (s.storeBytes (s.regsUpTo x))

/-- load-registers Vx: the bounds pre-check, and no font check, for reads are allowed there (rules R38, R125). -/
def execLoadRegs (x : Nibble) (s : State) : StepOutcome :=
  match s.checkAccess (x.toNat + 1) with
  | .error f => raise f
  | .ok _ => .next (s.loadRegsUpTo x)

end Sys2Proof.Machine
end

