-- ==== Sys2Proof/Machine/Keypad.lean ====
section
/-! DEFINITION. Keypad and timer instructions (45_keypad_timers.md), and the step of a pending key wait (rule R75). -/

namespace Sys2Proof.Machine

/-- skip-if-key-pressed Vx: the low nibble of `v[x]` is the key (rule R140). -/
def execSkp (x : Nibble) (s : State) : StepOutcome := .next (s.skipIf (s.key (lowNibble (s.getV x))))

/-- skip-if-key-not-pressed Vx (rule R141). -/
def execSknp (x : Nibble) (s : State) : StepOutcome := .next (s.skipIf (!(s.key (lowNibble (s.getV x)))))

/-- load Vx, DT (rule R142). -/
def execLdVxDt (x : Nibble) (s : State) : StepOutcome := .next (s.setV x s.dt)

/-- wait-for-key Vx, in the step that fetches it: the least pressed key completes it; with none pressed the CORE
enters the key wait and `pc` goes back to `pc0` (rule R143). -/
def execLdVxK (x : Nibble) (s : State) : StepOutcome :=
  match s.leastKey with
  | some k => .next (s.setV x (nibbleToByte k))
  | none => .next ((s.startWait x).setPc s.pc0)

/-- load DT, Vx (rule R144). -/
def execLdDtVx (x : Nibble) (s : State) : StepOutcome := .next (s.setDt (s.getV x))

/-- load ST, Vx (rule R145). -/
def execLdStVx (x : Nibble) (s : State) : StepOutcome := .next (s.setSt (s.getV x))

/-- A `step` while `wait = 1`: no fetch; with no key pressed nothing changes, else the least pressed key goes to
`v[wait_x]`, `wait` clears and `pc` advances (rule R75). -/
def pollKeyWait (s : State) : StepOutcome :=
  match s.leastKey with
  | some k => .next ((s.setV s.waitX (nibbleToByte k)).endWait).advance
  | none => .next s

end Sys2Proof.Machine
end

