-- ==== Sys2Proof/Machine/Step.lean ====
section
/-! DEFINITION. The step event (40_step_cycle.md rules R71 to R75): a poll of a pending key wait, or fetch, decode and one dispatch; and the placing of one instruction where the next step fetches it. -/

namespace Sys2Proof.Machine

/-- One `step` event. With `wait = 1` it polls the keypad (rule R75). Otherwise it fetches (rule R71), advances `pc`
by 2 and dispatches (rules R72, R73); a word that names no instruction raises UnknownOpcode with its address. -/
def step (s : State) : Host.Outcome State Fault Refusal :=
  if s.wait then pollKeyWait s
  else
    match s.fetch with
    | .error f => raise f
    | .ok w =>
      match Sys2Proof.decodeWord w with
      | .error _ => raise (.unknownOpcode w s.pc)
      | .ok i => exec i s.advance

/-- Where `withFetchWord` puts the word: at `pc`, or at the program base 0x200 if nothing can be fetched at `pc`. -/
def State.fetchSlot (s : State) : Word := if s.pc.toNat ≤ 0xFFE then s.pc else 0x0200#16

/-- `s` with a table word stored where the next step fetches. A pending key wait, which fetches nothing, is ended, and
a `pc` nothing can be fetched at is put at the program base (log entry 12). -/
def State.withFetchWord (s : State) (nbits w : Nat) : State :=
  (s.endWait.setPc s.fetchSlot).writeMem s.fetchSlot.toNat (Sys2Proof.tableBytes nbits w)

end Sys2Proof.Machine
end

