-- ==== Sys2Proof/Machine/Events.lean ====
section
/-! DEFINITION. The host interface (40_step_cycle.md): the five events, the outputs, the result of a step, and a session of events under the host's duty to load once, after reset and before the first step. -/

namespace Sys2Proof.Machine

/-! ### The host events on the state -/

/-- A timer after one tick: decremented by 1, floored at 0 (rule R76). -/
def tickDown (b : Byte) : Byte := if b = 0x00#8 then 0x00#8 else b - 0x01#8

/-- `tick_timers` (rule R76): both timers, in any state, and nothing else. -/
def tickTimers (s : State) : State := (s.setDt (tickDown s.dt)).setSt (tickDown s.st)

/-- `keys[k] <- p` for a key number that exists (rule R77). -/
def State.setKey (s : State) (k : Nibble) (p : Bool) : State := { s with keys := s.keys.set k.toNat p k.isLt }

/-- `set_key(index, pressed)`: no transition for an index of 16 or more (rule R77, U13). -/
def setKeyEvent (index : Nat) (pressed : Bool) (s : State) : StepOutcome :=
  if index < 16 then .next (s.setKey (BitVec.ofNat 4 index) pressed) else .refused (.keyIndexOutOfRange index)

/-- The longest image: 3584 bytes (rule R44). -/
def maxImage : Nat := 3584

/-- `load_image(bytes)`: byte `k` to `mem[0x200 + k]`; no transition for a longer image than fits (rule R44, U15). -/
def loadImage (bytes : List Byte) (s : State) : StepOutcome :=
  if bytes.length ≤ maxImage then .next (s.writeMem 0x200 bytes)
  else .refused (.imageTooLong bytes.length)

/-- `reset` (rule R170): every piece of the spec's state at its reset value, whatever it was, the font region
from the machine's FONT_TABLE. The model's own count of
random bytes goes on, so that a second run after reset receives bytes of its own (log entry 2). -/
def resetEvent (s : State) : State := { State.resetWith s.font with randIdx := s.randIdx }

/-! ### Outputs (rules R78 to R81) -/

/-- The display output (rule R78). -/
def displayOutput (s : State) : Display := s.disp

/-- The sound output: the condition `st > 0` (rule R79). -/
def soundOutput (s : State) : Bool := decide (0 < s.st.toNat)

/-- The awaiting-key output (rule R80). -/
def awaitingKeyOutput (s : State) : Bool := s.wait

/-- The number of a fault (rule R157). -/
def faultCode (f : Fault) : Nat :=
  match f with
  | .unknownOpcode _ _ => 1
  | .stackOverflow => 2
  | .stackUnderflow => 3
  | .outOfBoundsFetch _ => 4
  | .outOfBoundsAccess _ => 5
  | .fontRegionWrite _ => 6

/-- The result of a step: `none` is Ok, or the fault with its information (rule R81). A step that refused would have
no result; none does. -/
def stepResult (s : State) : Option Fault :=
  match step s with
  | .fault f => some f
  | _ => none

/-- The state a step leaves: after a fault, exactly the state before it (rules R74, R159). -/
def stepState (s : State) : State :=
  match step s with
  | .next t => t
  | _ => s

/-- The number of a step's result: 0 is Ok (rule R157). -/
def resultCode (s : State) : Nat :=
  match stepResult s with
  | none => 0
  | some f => faultCode f

/-! ### Sessions: any sequence of events the host may give (rules R82, R172) -/

/-- The five events (rule R70). -/
inductive Event where
  /-- rule R170 -/
  | reset
  /-- rule R44 -/
  | loadImage (bytes : List Byte)
  /-- rules R71 to R75 -/
  | step
  /-- rule R76 -/
  | tickTimers
  /-- rule R77 -/
  | setKey (index : Nat) (pressed : Bool)
  deriving DecidableEq, Repr

/-- Where the host stands in the required order reset, load_image, step (rule R172). -/
inductive Phase where
  /-- reset, nothing loaded, no step yet -/
  | fresh
  /-- an image loaded, no step yet -/
  | loaded
  /-- at least one step since reset -/
  | running
  deriving DecidableEq, Repr

/-- The CORE's state and the host's phase. -/
structure Session where
  core : State
  phase : Phase
  deriving DecidableEq, Repr

/-- The session right after the reset of a machine with this FONT_TABLE. -/
def Session.startWith (table : FontTable) : Session := { core := State.resetWith table, phase := .fresh }

/-- The session right after the reset of the machine with the default FONT_TABLE. -/
def Session.start : Session := Session.startWith defaultFontTable

/-- A session outcome from a state outcome. -/
def inPhase (p : Phase) (o : StepOutcome) : Host.Outcome Session Fault Refusal :=
  match o with
  | .next t => .next { core := t, phase := p }
  | .fault f => .fault f
  | .refused r => .refused r

/-- One event. A load is defined only between reset and the first step, once (rules R44, R175; log entry 9). -/
def Session.apply (c : Session) (e : Event) : Host.Outcome Session Fault Refusal :=
  match e with
  | .reset => .next { core := resetEvent c.core, phase := .fresh }
  | .loadImage bytes =>
    match c.phase with
    | .fresh => inPhase .loaded (loadImage bytes c.core)
    | .loaded => .refused .loadNotAllowed
    | .running => .refused .loadNotAllowed
  | .step => inPhase .running (Sys2Proof.Machine.step c.core)
  | .tickTimers => .next { c with core := tickTimers c.core }
  | .setKey index pressed => inPhase c.phase (setKeyEvent index pressed c.core)

/-- A sequence of events, ended by the first fault or host error (rules R159, R178). -/
def Session.run (c : Session) (es : List Event) : Host.Outcome Session Fault Refusal :=
  match es with
  | [] => .next c
  | e :: rest =>
    match c.apply e with
    | .next d => d.run rest
    | .fault f => .fault f
    | .refused r => .refused r

end Sys2Proof.Machine
end

