-- ==== Sys2Proof/Safety.lean ====
section
/-! DEFINITION. What claims speak about: the invariant of the CORE, what a program must respect (rule R173), when a step faults (rules R150 to R158), and the spec's convention for a finished program (rule R178). -/

namespace Sys2Proof.Safety

open Sys2Proof.Machine

/-! ### The invariant -/

/-- The font region reads as FONT_TABLE (the invariant rule R38 enforces). -/
def FontIntact (s : State) : Prop := ∀ a, a < 0x50 → some (s.read a) = s.font[a]?

/-- `pc` is at most 0x10FE (rule R12). -/
def PcBounded (s : State) : Prop := s.pc.toNat ≤ 0x10FE

/-- Every live return address is at most 0x1000 (rules R12, R90). -/
def StackBounded (s : State) : Prop := ∀ k : Fin 16, k.val < s.sp.val → (s.stack[k]).toNat ≤ 0x1000

/-- During a key wait `pc` holds the address of a wait-for-key whose register is `wait_x` (rule R17). -/
def KeyWaitAtInstruction (s : State) : Prop :=
  s.wait = true → s.pc.toNat ≤ 0xFFE ∧ s.word s.pc.toNat = encode (.ldVxK s.waitX)

/-- The invariant of the CORE: memory in canonical form, and the four above. -/
structure Inv (s : State) : Prop where
  memWf : s.mem.wf s.font = true
  font : FontIntact s
  pc : PcBounded s
  stack : StackBounded s
  keyWait : KeyWaitAtInstruction s

/-- The invariant of a session: the CORE's, and no key wait before the first step. -/
structure SessionInv (c : Session) : Prop where
  core : Inv c.core
  noWait : c.phase ≠ .running → c.core.wait = false

/-! ### When a step faults -/

/-- OutOfBoundsAccess with the lowest out-of-range address of a range at `i` (rules R37, R155). -/
def boundsFault (s : State) : Fault := .outOfBoundsAccess (BitVec.ofNat 16 (max s.i.toNat 0x1000))

/-- The own pre-check of an instruction, on the state its meaning sees (rule R158 (3)): the fault it raises, if any. -/
def ownFault (i : Instr) (s : State) : Option Fault :=
  match i with
  | .ret => if s.sp.val = 0 then some .stackUnderflow else none
  | .call _ => if s.sp.val = 16 then some .stackOverflow else none
  | .drw _ _ n =>
    if n ≠ 0x0#4 ∧ s.i.toNat + n.toNat - 1 > 0xFFF then some (boundsFault s) else none
  | .ldB _ =>
    if s.i.toNat + 2 > 0xFFF then some (boundsFault s)
    else if s.i.toNat ≤ 0x04F then some (.fontRegionWrite s.i) else none
  | .storeRegs x =>
    if s.i.toNat + x.toNat > 0xFFF then some (boundsFault s)
    else if s.i.toNat ≤ 0x04F then some (.fontRegionWrite s.i) else none
  | .loadRegs x =>
    if s.i.toNat + x.toNat > 0xFFF then some (boundsFault s) else none
  | .sys nnn => some (.unknownOpcode (nnn.setWidth 16) (s.pc - 2#16))
  | .cls => none
  | .jp _ => none
  | .seImm _ _ => none
  | .sneImm _ _ => none
  | .seReg _ _ => none
  | .ldImm _ _ => none
  | .addImm _ _ => none
  | .ldReg _ _ => none
  | .orReg _ _ => none
  | .andReg _ _ => none
  | .xorReg _ _ => none
  | .addReg _ _ => none
  | .subReg _ _ => none
  | .shr _ _ => none
  | .subnReg _ _ => none
  | .shl _ _ => none
  | .sneReg _ _ => none
  | .ldI _ => none
  | .jpV0 _ => none
  | .rnd _ _ => none
  | .skp _ => none
  | .sknp _ => none
  | .ldVxDt _ => none
  | .ldVxK _ => none
  | .ldDtVx _ => none
  | .ldStVx _ => none
  | .addI _ => none
  | .ldF _ => none

/-- The one fault a step raises, the first that applies: fetch, decode, the instruction's own (rule R158). -/
def expectedFault (s : State) : Option Fault :=
  if s.wait then none
  else if s.pc.toNat > 0xFFE then some (.outOfBoundsFetch s.pc)
  else
    match decodeWord (s.word s.pc.toNat) with
    | .error _ => some (.unknownOpcode (s.word s.pc.toNat) s.pc)
    | .ok i => ownFault i s.advance

/-- What a program must respect for the next step to run (rule R173). -/
def MayStep (s : State) : Prop := expectedFault s = none

/-! ### Words and registers -/

/-- The words that name no instruction, by their nibbles: the six classes (a) to (f) of rule R56. -/
def Unrecognised (w : Word) : Prop :=
  (opField w = 0x0#4 ∧ w ≠ 0x00E0#16 ∧ w ≠ 0x00EE#16) ∨
  (opField w = 0x5#4 ∧ nField w ≠ 0x0#4) ∨
  (opField w = 0x8#4 ∧ nField w ∈ [0x8#4, 0x9#4, 0xA#4, 0xB#4, 0xC#4, 0xD#4, 0xF#4]) ∨
  (opField w = 0x9#4 ∧ nField w ≠ 0x0#4) ∨
  (opField w = 0xE#4 ∧ nnField w ∉ [0x9E#8, 0xA1#8]) ∨
  (opField w = 0xF#4 ∧
    nnField w ∉ [0x07#8, 0x0A#8, 0x15#8, 0x18#8, 0x1E#8, 0x29#8, 0x33#8, 0x55#8, 0x65#8])

/-- The registers an instruction may write: its destination, the flag register for the six that write a flag (rule
R13), and `v[0]` to `v[x]` for load-registers (rule R125). -/
def WritesReg (i : Instr) (k : Nibble) : Prop :=
  match i with
  | .cls => False
  | .ret => False
  | .jp _ => False
  | .call _ => False
  | .seImm _ _ => False
  | .sneImm _ _ => False
  | .seReg _ _ => False
  | .ldImm x _ => k = x
  | .addImm x _ => k = x
  | .ldReg x _ => k = x
  | .orReg x _ => k = x
  | .andReg x _ => k = x
  | .xorReg x _ => k = x
  | .addReg x _ => k = x ∨ k = 0xF#4
  | .subReg x _ => k = x ∨ k = 0xF#4
  | .shr x _ => k = x ∨ k = 0xF#4
  | .subnReg x _ => k = x ∨ k = 0xF#4
  | .shl x _ => k = x ∨ k = 0xF#4
  | .sneReg _ _ => False
  | .ldI _ => False
  | .jpV0 _ => False
  | .rnd x _ => k = x
  | .drw _ _ _ => k = 0xF#4
  | .skp _ => False
  | .sknp _ => False
  | .ldVxDt x => k = x
  | .ldVxK x => k = x
  | .ldDtVx _ => False
  | .ldStVx _ => False
  | .addI _ => False
  | .ldF _ => False
  | .ldB _ => False
  | .storeRegs _ => False
  | .loadRegs x => k ≤ x
  | .sys _ => False

/-! ### The sprite of a draw -/

/-- A draw's sprite has a 1 bit at `disp[py][px]`: sprite row `r`, bit `7 - c`, at row `y0 + r` and column
`(x0 + c) mod 64`, where `x0 = v[x] mod 64` and `y0 = v[y] mod 32` (rule R131). Rows past 31 name no pixel. -/
def SpriteSets (s : State) (x y n : Nibble) (py : Fin 32) (px : Fin 64) : Prop :=
  ∃ r, r < n.toNat ∧ ∃ c, c < 8 ∧
    (s.getV y).toNat % 32 + r = py.val ∧ ((s.getV x).toNat % 64 + c) % 64 = px.val ∧
    (s.read (s.i.toNat + r)).getLsbD (7 - c) = true

/-! ### The end of a run -/

/-- The spec's convention for "the program is finished": no key wait, and the word at `pc` is a jump to itself
(rule R178). It says nothing about timers or keys. -/
def Finished (s : State) : Prop :=
  s.wait = false ∧ s.pc.toNat ≤ 0xFFE ∧ ∃ nnn : Imm12, s.word s.pc.toNat = encode (.jp nnn) ∧ nnn.setWidth 16 = s.pc

end Sys2Proof.Safety
end

