-- ==== Sys2Proof/Certificates/Slice0/Obligations.lean ====
section
/-! DEFINITION. The statements for the provers. In a statement about `exec` the state `s` is the one a meaning sees: its `pc` is already `pc0 + 2` (rule R72); `step` supplies it (StepRunsTheFetchedInstruction). `t = { s with f := t.f }` says that `t` is `s` in every field but `f`, memory included. -/

open Sys2Proof Sys2Proof.Machine Sys2Proof.Safety

/-! ### Encoding -/

/-- Every well-formed instruction, with every operand value, is decoded from its own word (30_encoding.md sections 2, 3). -/
def Obligations.DecodeOfEncodeIsTheInstruction : Prop :=
  ∀ i : Instr, WellFormed i → decodeWord (encode i) = .ok i

/-- The other direction: a decoded word is the word of the instruction it gives, and that instruction is well-formed;
no bit of a recognised word is dropped (rules R53, R57). -/
def Obligations.EncodeOfDecodeIsTheWord : Prop :=
  ∀ (w : Word) (i : Instr), decodeWord w = .ok i → encode i = w ∧ WellFormed i

/-- The seven worked decodes of 30_encoding.md section 6, the last of them by the fault it ends in (the model decodes
`0000` to SYS, log entry 8), and a word of each of the sixteen families of nibble 1, written out from rule R55. -/
def Obligations.WorkedDecodes : Prop :=
  decodeWord 0x6005#16 = .ok (.ldImm 0x0#4 0x05#8) ∧
  decodeWord 0xA000#16 = .ok (.ldI 0x000#12) ∧
  decodeWord 0xD005#16 = .ok (.drw 0x0#4 0x0#4 0x5#4) ∧
  decodeWord 0x8AB4#16 = .ok (.addReg 0xA#4 0xB#4) ∧
  decodeWord 0xF20A#16 = .ok (.ldVxK 0x2#4) ∧
  decodeWord 0x5121#16 = .error (.unknownOpcode 0x5121#16) ∧
  (decodeWord 0x0000#16 = .ok (.sys 0x000#12) ∧
    ∀ s : State, exec (.sys 0x000#12) s = .fault (.unknownOpcode 0x0000#16 (s.pc - 2#16))) ∧
  decodeWord 0x00EE#16 = .ok .ret ∧
  decodeWord 0x1ABC#16 = .ok (.jp 0xABC#12) ∧
  decodeWord 0x2ABC#16 = .ok (.call 0xABC#12) ∧
  decodeWord 0x31AB#16 = .ok (.seImm 0x1#4 0xAB#8) ∧
  decodeWord 0x41FF#16 = .ok (.sneImm 0x1#4 0xFF#8) ∧
  decodeWord 0x5120#16 = .ok (.seReg 0x1#4 0x2#4) ∧
  decodeWord 0x70FF#16 = .ok (.addImm 0x0#4 0xFF#8) ∧
  decodeWord 0x9120#16 = .ok (.sneReg 0x1#4 0x2#4) ∧
  decodeWord 0xB300#16 = .ok (.jpV0 0x300#12) ∧
  decodeWord 0xC10F#16 = .ok (.rnd 0x1#4 0x0F#8) ∧
  decodeWord 0xE7A1#16 = .ok (.sknp 0x7#4) ∧
  decodeWord 0xF365#16 = .ok (.loadRegs 0x3#4)

/-- Rule R54: a word selects the instruction of the one row (of the 34 with semantics) whose match and mask it meets;
the rows are disjoint; a word that meets none of them raises UnknownOpcode. -/
def Obligations.OpcodeMapSelectsTheInstruction : Prop :=
  (∀ (w : Word) (i : Instr), (∀ n, i ≠ .sys n) → w &&& (opcodeRow i).2 = (opcodeRow i).1 →
    ∃ j, decodeWord w = .ok j ∧ opcodeRow j = opcodeRow i) ∧
  (∀ (w : Word) (i j : Instr), (∀ n, i ≠ .sys n) → (∀ n, j ≠ .sys n) →
    w &&& (opcodeRow i).2 = (opcodeRow i).1 → w &&& (opcodeRow j).2 = (opcodeRow j).1 → opcodeRow i = opcodeRow j) ∧
  (∀ s : State, s.wait = false → s.pc.toNat ≤ 0xFFE →
    (∀ i : Instr, (∀ n, i ≠ .sys n) → s.word s.pc.toNat &&& (opcodeRow i).2 ≠ (opcodeRow i).1) →
    step s = .fault (.unknownOpcode (s.word s.pc.toNat) s.pc))

/-- Rule R151: UnknownOpcode is raised exactly after a successful fetch of an unrecognised word, every `0NNN` other
than `00E0` and `00EE` among them, and carries the word and the address it was fetched from. -/
def Obligations.UnknownOpcodeExactly : Prop :=
  ∀ (s : State) (w p : Word), step s = .fault (.unknownOpcode w p) ↔
    s.wait = false ∧ s.pc.toNat ≤ 0xFFE ∧ p = s.pc ∧ w = s.word s.pc.toNat ∧ Unrecognised w

/-- Rule R57, the shifts (the spec's decision D12): every value of the field `y` decodes to the shift and has the same effect, and a register
other than `v[x]` and `v[0xF]` is neither read nor written. -/
def Obligations.ShiftsIgnoreTheFieldY : Prop :=
  ∀ x y y' : Nibble,
    decodeWord (0x8#4 ++ x ++ y ++ 0x6#4) = .ok (.shr x y) ∧ decodeWord (0x8#4 ++ x ++ y ++ 0xE#4) = .ok (.shl x y) ∧
    (∀ s : State, exec (.shr x y) s = exec (.shr x y') s ∧ exec (.shl x y) s = exec (.shl x y') s) ∧
    (∀ (s : State) (k : Nibble) (b : Byte), k ≠ x → k ≠ 0xF#4 → ∃ t u : State,
      exec (.shr x y) s = .next t ∧ exec (.shr x y) (s.setV k b) = .next (t.setV k b) ∧
      exec (.shl x y) s = .next u ∧ exec (.shl x y) (s.setV k b) = .next (u.setV k b))

/-! ### The step -/

/-- Rule R33: the word fetched at `pc` has `mem[pc]` in bits 15:8 and `mem[pc+1]` in bits 7:0. -/
def Obligations.FetchIsBigEndian : Prop :=
  ∀ s : State, s.pc.toNat ≤ 0xFFE → ∃ w : Word, s.fetch = .ok w ∧
    w.extractLsb' 8 8 = s.read s.pc.toNat ∧ w.extractLsb' 0 8 = s.read (s.pc.toNat + 1)

/-- Rules R72, R73: with no key wait and `pc` in range, the step fetches the two bytes at `pc`, advances `pc` by 2 and
runs the decoded instruction, and nothing else; a word that names none raises UnknownOpcode with its address; the
advance is not committed when the step faults. -/
def Obligations.StepRunsTheFetchedInstruction : Prop :=
  ∀ s : State, s.wait = false → s.pc.toNat ≤ 0xFFE →
    (∀ i : Instr, decodeWord (s.read s.pc.toNat ++ s.read (s.pc.toNat + 1)) = .ok i →
      step s = exec i { s with pc := s.pc + 2#16 }) ∧
    (∀ e, decodeWord (s.read s.pc.toNat ++ s.read (s.pc.toNat + 1)) = .error e →
      step s = .fault (.unknownOpcode (s.read s.pc.toNat ++ s.read (s.pc.toNat + 1)) s.pc)) ∧
    ∀ f, step s = .fault f → stepState s = s

/-- Rule R71: a step with no key wait raises OutOfBoundsFetch(pc), changing nothing, when `pc > 0xFFE`, and goes on
to the fetch otherwise. -/
def Obligations.FetchBoundsCheck : Prop :=
  ∀ s : State, s.wait = false →
    (0xFFE < s.pc.toNat → step s = .fault (.outOfBoundsFetch s.pc) ∧ stepState s = s) ∧
    (s.pc.toNat ≤ 0xFFE → ∀ p, step s ≠ .fault (.outOfBoundsFetch p))

/-- Rule R75: while `wait = 1` a step changes nothing with no key pressed; else the least pressed key goes to
`v[wait_x]`, `wait` clears and `pc` advances by 2. It always answers Ok. -/
def Obligations.StepDuringKeyWait : Prop :=
  ∀ s : State, s.wait = true →
    ((∀ k, s.key k = false) → step s = .next s) ∧
    (∀ k, s.key k = true → (∀ j, j < k → s.key j = false) → ∃ t : State,
      step s = .next t ∧ t = { s with v := t.v, wait := false, pc := s.pc + 2#16 } ∧
      ∀ r, t.getV r = if r = s.waitX then k.setWidth 8 else s.getV r)

/-- Rule R74: after a step that faults the whole state is what it was, and the `pc` UnknownOpcode and OutOfBoundsFetch
carry is the address of the faulting instruction; a step that does not fault leaves the state it computed. -/
def Obligations.FaultingStepChangesNothing : Prop :=
  ∀ s : State, (∀ f, step s = .fault f → stepState s = s) ∧ (∀ t, step s = .next t → stepState s = t) ∧
    (∀ w p, step s = .fault (.unknownOpcode w p) → p = s.pc) ∧
    (∀ p, step s = .fault (.outOfBoundsFetch p) → p = s.pc)

/-- Rule R81: every step answers Ok or one fault, which is its result; never a refusal. -/
def Obligations.StepAnswersOkOrOneFault : Prop :=
  ∀ s : State, (∃ t, step s = .next t ∧ stepResult s = none) ∨ (∃ f, step s = .fault f ∧ stepResult s = some f)

/-- Rule R158: the fault of a step is the first that applies in the order fetch, decode, the instruction's own
pre-check with bounds before font; and a step runs exactly when none applies (rule R173). -/
def Obligations.FaultPriority : Prop :=
  ∀ s : State, (∀ f, step s = .fault f ↔ expectedFault s = some f) ∧ ((∃ t, step s = .next t) ↔ MayStep s)

/-- Rule R159, its derived sentence: if the host steps again after a fault the same fault is returned, whatever ticks
and keys came between, and whatever random byte would come next. -/
def Obligations.FaultIsReturnedAgain : Prop :=
  ∀ (s : State) (f : Fault), step s = .fault f →
    step (stepState s) = .fault f ∧ step (tickTimers s) = .fault f ∧
    (∀ k p, step (s.setKey k p) = .fault f) ∧ ∀ n, step { s with randIdx := n } = .fault f

/-- Rules R152, R153, R155, R156: which instruction raises which fault of its own, exactly when, and with what. -/
def Obligations.InstructionFaultsExactly : Prop :=
  ∀ (i : Instr) (s : State),
    (exec i s = .fault .stackOverflow ↔ (∃ nnn, i = .call nnn) ∧ s.sp.val = 16) ∧
    (exec i s = .fault .stackUnderflow ↔ i = .ret ∧ s.sp.val = 0) ∧
    (∀ a, exec i s = .fault (.outOfBoundsAccess a) ↔ a = BitVec.ofNat 16 (max s.i.toNat 0x1000) ∧
      ((∃ x y n, i = .drw x y n ∧ n ≠ 0x0#4 ∧ 0xFFF < s.i.toNat + n.toNat - 1) ∨
       (∃ x, i = .ldB x ∧ 0xFFF < s.i.toNat + 2) ∨
       (∃ x, (i = .storeRegs x ∨ i = .loadRegs x) ∧ 0xFFF < s.i.toNat + x.toNat))) ∧
    (∀ a, exec i s = .fault (.fontRegionWrite a) ↔ a = s.i ∧ s.i.toNat ≤ 0x04F ∧
      ∃ x, i = .ldB x ∨ i = .storeRegs x)

/-- Rule R157: the numbers of the results. -/
def Obligations.ResultCodes : Prop :=
  ∀ s : State, (∀ t, step s = .next t → resultCode s = 0) ∧
    (∀ w p, step s = .fault (.unknownOpcode w p) → resultCode s = 1) ∧
    (step s = .fault .stackOverflow → resultCode s = 2) ∧
    (step s = .fault .stackUnderflow → resultCode s = 3) ∧
    (∀ p, step s = .fault (.outOfBoundsFetch p) → resultCode s = 4) ∧
    (∀ a, step s = .fault (.outOfBoundsAccess a) → resultCode s = 5) ∧
    (∀ a, step s = .fault (.fontRegionWrite a) → resultCode s = 6)

/-! ### Reset and invariants -/

/-- Rule R23: the state after reset, every field the spec names, for every FONT_TABLE a machine may be given (rule R32);
`State.reset` is that of the default table, whose glyph of digit 0 is the document's. -/
def Obligations.ResetStateIsAsStated : Prop :=
  (∀ table : FontTable, ∃ r : State, r = State.resetWith table ∧
    (∀ k, r.getV k = 0x00#8) ∧ r.i = 0x0000#16 ∧ r.pc = 0x0200#16 ∧
    r.sp.val = 0 ∧ (∀ k : Fin 16, r.stack[k] = 0x0000#16) ∧ r.dt = 0x00#8 ∧ r.st = 0x00#8 ∧
    (∀ y x, Display.get r.disp y x = false) ∧
    (∀ a, a < 0x50 → some (r.read a) = table[a]?) ∧ (∀ a, 0x50 ≤ a → a ≤ 0xFFF → r.read a = 0x00#8) ∧
    (∀ k, r.key k = false) ∧ r.wait = false ∧ r.waitX = 0x0#4) ∧
  State.reset = State.resetWith defaultFontTable ∧
  defaultFontTable.toList.take 5 = [0xF0#8, 0x90#8, 0x90#8, 0x90#8, 0xF0#8]

/-- The reset state has the invariant, and a session starts with its own, whatever the machine's FONT_TABLE. -/
def Obligations.ResetHasTheInvariant : Prop :=
  ∀ table : FontTable, Inv (State.resetWith table) ∧ SessionInv (Session.startWith table)

/-- HEADLINE. Every step keeps the invariant: memory stays in canonical form, the font region reads as the machine's FONT_TABLE,
`pc` stays at most 0x10FE and never wraps, live return addresses stay at most 0x1000, and a pending key wait stands at
a wait-for-key for its register (rules R12, R17, R38; the bounds are sentences the spec marks as derived). -/
def Obligations.StepKeepsTheInvariant : Prop :=
  ∀ s t : State, Inv s → step s = .next t → Inv t

/-- Every host event keeps the session's invariant, in any order the host chooses (rule R82). -/
def Obligations.EventsKeepTheInvariant : Prop :=
  ∀ (c d : Session) (e : Event), SessionInv c → c.apply e = .next d → SessionInv d

/-- No step changes a byte of the font region, in any state (the invariant rule R38 enforces), nor the machine's
parameter FONT_TABLE. -/
def Obligations.FontRegionIsNeverWritten : Prop :=
  ∀ s t : State, step s = .next t → t.font = s.font ∧ ∀ a, a < 0x50 → t.read a = s.read a

/-- Rule R167: a key wait is entered only by a step that runs wait-for-key with no key down, and left only by a step
that finds a key down or by reset; a step that finds none leaves the whole state. -/
def Obligations.KeyWaitEnteredAndLeftOnly : Prop :=
  ∀ (c d : Session) (e : Event), c.apply e = .next d →
    (c.core.wait = false → d.core.wait = true →
      e = .step ∧ (∀ k, c.core.key k = false) ∧ ∃ x, decodeWord (c.core.word c.core.pc.toNat) = .ok (.ldVxK x)) ∧
    (c.core.wait = true → d.core.wait = false → e = .reset ∨ (e = .step ∧ ∃ k, c.core.key k = true)) ∧
    (c.core.wait = true → e = .step → (∀ k, c.core.key k = false) → d.core = c.core)

/-- No step changes the keypad, and a step changes a timer only by load DT or load ST: no step counts a timer down
(rules R15, R16, R20). -/
def Obligations.StepLeavesKeysAndTimers : Prop :=
  ∀ s t : State, step s = .next t → t.keys = s.keys ∧
    (t.dt = s.dt ∨ (s.wait = false ∧ ∃ x, s.word s.pc.toNat = encode (.ldDtVx x) ∧ t.dt = s.getV x)) ∧
    (t.st = s.st ∨ (s.wait = false ∧ ∃ x, s.word s.pc.toNat = encode (.ldStVx x) ∧ t.st = s.getV x))

/-! ### Frames of every instruction -/

/-- An instruction changes no general register but its destination, the flag register if it is one of the six that
write a flag, and `v[0]` to `v[x]` for load-registers. -/
def Obligations.RegisterFrame : Prop :=
  ∀ (i : Instr) (s t : State), exec i s = .next t → ∀ k, ¬ WritesReg i k → t.getV k = s.getV k

/-- Rule R13: the six flag-writing instructions leave 0x00 or 0x01 in `v[0xF]` (the shifts, when their destination is
`v[0xF]`, leave the result instead, rule R100), and every other instruction leaves `v[0xF]` unless it names it. -/
def Obligations.FlagRegisterFrame : Prop :=
  ∀ (i : Instr) (s t : State), exec i s = .next t →
    (∀ x y n, (i = .addReg x y ∨ i = .subReg x y ∨ i = .subnReg x y ∨ i = .drw x y n ∨
        (x ≠ 0xF#4 ∧ (i = .shr x y ∨ i = .shl x y))) → t.getV 0xF#4 = 0x00#8 ∨ t.getV 0xF#4 = 0x01#8) ∧
    ((∀ x y n, i ≠ .addReg x y ∧ i ≠ .subReg x y ∧ i ≠ .subnReg x y ∧ i ≠ .shr x y ∧ i ≠ .shl x y ∧ i ≠ .drw x y n) →
      (∀ y nn, i ≠ .ldImm 0xF#4 nn ∧ i ≠ .addImm 0xF#4 nn ∧ i ≠ .rnd 0xF#4 nn ∧ i ≠ .ldReg 0xF#4 y ∧
        i ≠ .orReg 0xF#4 y ∧ i ≠ .andReg 0xF#4 y ∧ i ≠ .xorReg 0xF#4 y ∧ i ≠ .ldVxDt 0xF#4 ∧ i ≠ .ldVxK 0xF#4 ∧
        i ≠ .loadRegs 0xF#4) → t.getV 0xF#4 = s.getV 0xF#4)

/-- `i` is written by load I, add I and font only (rule R18), and `sp` and the stack by call and return only
(rules R14, R19). -/
def Obligations.IndexAndStackFrame : Prop :=
  ∀ (i : Instr) (s t : State), exec i s = .next t →
    (t.i = s.i ∨ (∃ nnn, i = .ldI nnn) ∨ (∃ x, i = .addI x ∨ i = .ldF x)) ∧
    ((t.sp = s.sp ∧ t.stack = s.stack) ∨ (∃ nnn, i = .call nnn) ∨ i = .ret)

/-- The display is written by clear-screen and draw only (rule R20), and the key-wait state by wait-for-key only
(rule R17); the keypad by none; a random byte is taken by random only (rule R112; the counter is the model's, log entry 1). -/
def Obligations.DisplayAndKeypadFrame : Prop :=
  ∀ (i : Instr) (s t : State), exec i s = .next t →
    (t.disp = s.disp ∨ i = .cls ∨ ∃ x y n, i = .drw x y n) ∧
    ((t.wait = s.wait ∧ t.waitX = s.waitX) ∨ ∃ x, i = .ldVxK x) ∧ t.keys = s.keys ∧
    (t.randIdx = s.randIdx ∨ ∃ x nn, i = .rnd x nn)

/-- Every byte of memory is unchanged but the three at `i` for store-BCD and the `x + 1` at `i` for store-registers
(rules R36, R39), and the machine's FONT_TABLE by none. -/
def Obligations.MemoryFrame : Prop :=
  ∀ (i : Instr) (s t : State), exec i s = .next t → t.font = s.font ∧ ∀ a,
    t.read a = s.read a ∨
    (∃ x, i = .ldB x ∧ s.i.toNat ≤ a ∧ a ≤ s.i.toNat + 2) ∨
    (∃ x, i = .storeRegs x ∧ s.i.toNat ≤ a ∧ a ≤ s.i.toNat + x.toNat)

/-! ### Control transfer (41_control_transfer.md) -/

/-- Rule R90, return. -/
def Obligations.ReturnPopsThePc : Prop :=
  decodeWord 0x00EE#16 = .ok .ret ∧
  (∀ s : State, s.sp.val = 0 → exec .ret s = .fault .stackUnderflow) ∧
  (∀ s : State, 0 < s.sp.val → ∃ t : State, exec .ret s = .next t ∧ t = { s with pc := t.pc, sp := t.sp } ∧
    t.sp.val = s.sp.val - 1 ∧ s.stack[s.sp.val - 1]? = some t.pc)

/-- Rule R91, jump. -/
def Obligations.JumpSetsThePc : Prop :=
  ∀ nnn : Imm12, decodeWord (0x1#4 ++ nnn) = .ok (.jp nnn) ∧
    ∀ s : State, exec (.jp nnn) s = .next { s with pc := nnn.setWidth 16 }

/-- Rule R92, call: the pushed `pc` is `pc0 + 2`. -/
def Obligations.CallPushesThePc : Prop :=
  ∀ nnn : Imm12, decodeWord (0x2#4 ++ nnn) = .ok (.call nnn) ∧
    (∀ s : State, s.sp.val = 16 → exec (.call nnn) s = .fault .stackOverflow) ∧
    (∀ s : State, s.sp.val < 16 → ∃ t : State, exec (.call nnn) s = .next t ∧
      t = { s with pc := nnn.setWidth 16, sp := t.sp, stack := t.stack } ∧ t.sp.val = s.sp.val + 1 ∧
      ∀ k : Fin 16, t.stack[k] = if k.val = s.sp.val then s.pc else s.stack[k])

/-- Rules R93, R94: the skips on a byte immediate. -/
def Obligations.SkipOnImmediate : Prop :=
  ∀ (x : Nibble) (nn : Byte),
    decodeWord (0x3#4 ++ x ++ nn) = .ok (.seImm x nn) ∧ decodeWord (0x4#4 ++ x ++ nn) = .ok (.sneImm x nn) ∧
    ∀ s : State,
      exec (.seImm x nn) s = .next { s with pc := if s.getV x = nn then s.pc + 2#16 else s.pc } ∧
      exec (.sneImm x nn) s = .next { s with pc := if s.getV x ≠ nn then s.pc + 2#16 else s.pc }

/-- Rules R95, R96: the skips on two registers. -/
def Obligations.SkipOnRegisters : Prop :=
  ∀ x y : Nibble,
    decodeWord (0x5#4 ++ x ++ y ++ 0x0#4) = .ok (.seReg x y) ∧ decodeWord (0x9#4 ++ x ++ y ++ 0x0#4) = .ok (.sneReg x y) ∧
    (∀ n : Nibble, n ≠ 0x0#4 →
      decodeWord (0x5#4 ++ x ++ y ++ n) = .error (.unknownOpcode (0x5#4 ++ x ++ y ++ n)) ∧
      decodeWord (0x9#4 ++ x ++ y ++ n) = .error (.unknownOpcode (0x9#4 ++ x ++ y ++ n))) ∧
    ∀ s : State,
      exec (.seReg x y) s = .next { s with pc := if s.getV x = s.getV y then s.pc + 2#16 else s.pc } ∧
      exec (.sneReg x y) s = .next { s with pc := if s.getV x ≠ s.getV y then s.pc + 2#16 else s.pc }

/-- Rule R97, jump-plus-offset: the exact sum, not cut to 12 bits. -/
def Obligations.JumpPlusOffset : Prop :=
  ∀ nnn : Imm12, decodeWord (0xB#4 ++ nnn) = .ok (.jpV0 nnn) ∧
    ∀ s : State, ∃ t : State, exec (.jpV0 nnn) s = .next t ∧ t = { s with pc := t.pc } ∧
      t.pc.toNat = nnn.toNat + (s.getV 0x0#4).toNat

/-- The stack discipline of 41_control_transfer.md rule R92: a return right after a call restores `pc` to the
instruction after the call and the stack depth, wherever the return stands. -/
def Obligations.CallThenReturn : Prop :=
  ∀ (nnn : Imm12) (s t : State) (p : Word), exec (.call nnn) s = .next t → ∃ u : State,
    exec .ret { t with pc := p } = .next u ∧ u = { s with stack := u.stack }

/-- The form `0NNN` raises UnknownOpcode on every path (rules R58, R151). That the fault comes from a decoded
constructor SYS is the model's choice (log entry 8), and so is `pc - 2`, the fetch address as a meaning finds it (log
entry 4). -/
def Obligations.SysAlwaysFaults : Prop :=
  ∀ nnn : Imm12, nnn ≠ 0x0E0#12 → nnn ≠ 0x0EE#12 →
    decodeWord (0x0#4 ++ nnn) = .ok (.sys nnn) ∧
    ∀ s : State, exec (.sys nnn) s = .fault (.unknownOpcode (0x0#4 ++ nnn) (s.pc - 2#16))

/-! ### Load, ALU, random (42_load_alu_random.md) -/

/-- Rules R101, R102: load and add of a byte immediate, with no flag. -/
def Obligations.LoadAndAddImmediate : Prop :=
  ∀ (x : Nibble) (nn : Byte),
    decodeWord (0x6#4 ++ x ++ nn) = .ok (.ldImm x nn) ∧ decodeWord (0x7#4 ++ x ++ nn) = .ok (.addImm x nn) ∧
    (∀ s : State, ∃ t : State, exec (.ldImm x nn) s = .next t ∧ t = { s with v := t.v } ∧
      ∀ k, t.getV k = if k = x then nn else s.getV k) ∧
    (∀ s : State, ∃ t : State, exec (.addImm x nn) s = .next t ∧ t = { s with v := t.v } ∧
      ∀ k, t.getV k = if k = x then BitVec.ofNat 8 ((s.getV x).toNat + nn.toNat) else s.getV k)

/-- Rules R103 to R106: copy, or, and, xor, with no flag. -/
def Obligations.CopyAndBitwise : Prop :=
  ∀ x y : Nibble,
    decodeWord (0x8#4 ++ x ++ y ++ 0x0#4) = .ok (.ldReg x y) ∧ decodeWord (0x8#4 ++ x ++ y ++ 0x1#4) = .ok (.orReg x y) ∧
    decodeWord (0x8#4 ++ x ++ y ++ 0x2#4) = .ok (.andReg x y) ∧ decodeWord (0x8#4 ++ x ++ y ++ 0x3#4) = .ok (.xorReg x y) ∧
    (∀ s : State, ∃ t : State, exec (.ldReg x y) s = .next t ∧ t = { s with v := t.v } ∧
      ∀ k, t.getV k = if k = x then s.getV y else s.getV k) ∧
    (∀ s : State, ∃ t : State, exec (.orReg x y) s = .next t ∧ t = { s with v := t.v } ∧
      ∀ k, t.getV k = if k = x then s.getV x ||| s.getV y else s.getV k) ∧
    (∀ s : State, ∃ t : State, exec (.andReg x y) s = .next t ∧ t = { s with v := t.v } ∧
      ∀ k, t.getV k = if k = x then s.getV x &&& s.getV y else s.getV k) ∧
    (∀ s : State, ∃ t : State, exec (.xorReg x y) s = .next t ∧ t = { s with v := t.v } ∧
      ∀ k, t.getV k = if k = x then s.getV x ^^^ s.getV y else s.getV k)

/-- Rule R107, add: the wrapped sum, and the carry, which remains when the destination is `v[0xF]`. -/
def Obligations.AddSetsSumAndCarry : Prop :=
  ∀ x y : Nibble, decodeWord (0x8#4 ++ x ++ y ++ 0x4#4) = .ok (.addReg x y) ∧
    ∀ s : State, ∃ t : State, exec (.addReg x y) s = .next t ∧ t = { s with v := t.v } ∧
      ∀ k, t.getV k =
        if k = 0xF#4 then (if (s.getV x).toNat + (s.getV y).toNat > 255 then 0x01#8 else 0x00#8)
        else if k = x then BitVec.ofNat 8 ((s.getV x).toNat + (s.getV y).toNat) else s.getV k

/-- Rules R108, R110, sub and subn: the wrapped difference, and not-borrow, which remains when the destination is
`v[0xF]`. -/
def Obligations.SubSetsDifferenceAndNotBorrow : Prop :=
  ∀ x y : Nibble,
    decodeWord (0x8#4 ++ x ++ y ++ 0x5#4) = .ok (.subReg x y) ∧ decodeWord (0x8#4 ++ x ++ y ++ 0x7#4) = .ok (.subnReg x y) ∧
    (∀ s : State, ∃ t : State, exec (.subReg x y) s = .next t ∧ t = { s with v := t.v } ∧
      ∀ k, t.getV k =
        if k = 0xF#4 then (if (s.getV x).toNat ≥ (s.getV y).toNat then 0x01#8 else 0x00#8)
        else if k = x then BitVec.ofNat 8 (256 + (s.getV x).toNat - (s.getV y).toNat) else s.getV k) ∧
    (∀ s : State, ∃ t : State, exec (.subnReg x y) s = .next t ∧ t = { s with v := t.v } ∧
      ∀ k, t.getV k =
        if k = 0xF#4 then (if (s.getV y).toNat ≥ (s.getV x).toNat then 0x01#8 else 0x00#8)
        else if k = x then BitVec.ofNat 8 (256 + (s.getV y).toNat - (s.getV x).toNat) else s.getV k)

/-- Rules R109, R111, the shifts: `v[x]` in place by one, the bit put out in `v[0xF]`, and the result remains when the
destination is `v[0xF]`. -/
def Obligations.ShiftsByOne : Prop :=
  ∀ x y : Nibble,
    decodeWord (0x8#4 ++ x ++ y ++ 0x6#4) = .ok (.shr x y) ∧ decodeWord (0x8#4 ++ x ++ y ++ 0xE#4) = .ok (.shl x y) ∧
    (∀ s : State, ∃ t : State, exec (.shr x y) s = .next t ∧ t = { s with v := t.v } ∧
      ∀ k, t.getV k =
        if k = x then BitVec.ofNat 8 ((s.getV x).toNat / 2)
        else if k = 0xF#4 then BitVec.ofNat 8 ((s.getV x).toNat % 2) else s.getV k) ∧
    (∀ s : State, ∃ t : State, exec (.shl x y) s = .next t ∧ t = { s with v := t.v } ∧
      ∀ k, t.getV k =
        if k = x then BitVec.ofNat 8 ((s.getV x).toNat * 2)
        else if k = 0xF#4 then BitVec.ofNat 8 ((s.getV x).toNat / 128) else s.getV k)

/-- Rule R112, random: the step's random byte under the mask; bits outside the mask are 0. The byte is the model's free
value at its own counter (log entries 1 and 2), and nothing is said of its value. -/
def Obligations.RandomMasksTheInput : Prop :=
  ∀ (x : Nibble) (nn : Byte), decodeWord (0xC#4 ++ x ++ nn) = .ok (.rnd x nn) ∧
    ∀ s : State, ∃ t : State, exec (.rnd x nn) s = .next t ∧
      t = { s with v := t.v, randIdx := s.randIdx + 1 } ∧
      (∀ k, t.getV k = if k = x then Config.randByte s.randIdx &&& nn else s.getV k) ∧
      ∀ b, nn.getLsbD b = false → (t.getV x).getLsbD b = false

/-! ### Index register and memory (43_index_memory.md) -/

/-- Rules R120, R121, R122: load I, add I (16-bit wrap, no flag), and the font address of a digit. -/
def Obligations.IndexRegisterResults : Prop :=
  (∀ nnn : Imm12, decodeWord (0xA#4 ++ nnn) = .ok (.ldI nnn) ∧
    ∀ s : State, exec (.ldI nnn) s = .next { s with i := nnn.setWidth 16 }) ∧
  (∀ x : Nibble, decodeWord (0xF#4 ++ x ++ 0x1E#8) = .ok (.addI x) ∧
    ∀ s : State, exec (.addI x) s = .next { s with i := BitVec.ofNat 16 (s.i.toNat + (s.getV x).toNat) }) ∧
  (∀ x : Nibble, decodeWord (0xF#4 ++ x ++ 0x29#8) = .ok (.ldF x) ∧
    ∀ s : State, exec (.ldF x) s = .next { s with i := BitVec.ofNat 16 (5 * ((s.getV x).toNat % 16)) })

/-- After load I, font(Vx) in a state whose font region is intact, the five bytes at `i` are the digit's glyph of the
machine's FONT_TABLE, whatever that table is (rules R32, R122). -/
def Obligations.FontAddressFindsTheGlyph : Prop :=
  ∀ (x : Nibble) (s : State), FontIntact s → ∃ t : State, exec (.ldF x) s = .next t ∧
    ∀ r, r < 5 → some (t.read (t.i.toNat + r)) = s.font[5 * ((s.getV x).toNat % 16) + r]?

/-- Rule R123, store-BCD: the three digits at `i`, `i+1`, `i+2`, or a fault with nothing written. -/
def Obligations.StoreBcdWritesThreeDigits : Prop :=
  ∀ x : Nibble, decodeWord (0xF#4 ++ x ++ 0x33#8) = .ok (.ldB x) ∧
    ∀ s : State,
      (0xFFF < s.i.toNat + 2 → exec (.ldB x) s = .fault (.outOfBoundsAccess (BitVec.ofNat 16 (max s.i.toNat 0x1000)))) ∧
      (s.i.toNat ≤ 0x04F → exec (.ldB x) s = .fault (.fontRegionWrite s.i)) ∧
      (0x04F < s.i.toNat → s.i.toNat + 2 ≤ 0xFFF → ∃ t : State,
        exec (.ldB x) s = .next t ∧ t = { s with mem := t.mem } ∧
        ∀ a, t.read a =
          if a = s.i.toNat then BitVec.ofNat 8 ((s.getV x).toNat / 100)
          else if a = s.i.toNat + 1 then BitVec.ofNat 8 ((s.getV x).toNat / 10 % 10)
          else if a = s.i.toNat + 2 then BitVec.ofNat 8 ((s.getV x).toNat % 10)
          else s.read a)

/-- Rule R124, store-registers: `v[k]` at `i + k` for `k` in 0 to `x`, or a fault with nothing written. -/
def Obligations.StoreRegistersWritesTheBlock : Prop :=
  ∀ x : Nibble, decodeWord (0xF#4 ++ x ++ 0x55#8) = .ok (.storeRegs x) ∧
    ∀ s : State,
      (0xFFF < s.i.toNat + x.toNat →
        exec (.storeRegs x) s = .fault (.outOfBoundsAccess (BitVec.ofNat 16 (max s.i.toNat 0x1000)))) ∧
      (s.i.toNat ≤ 0x04F → exec (.storeRegs x) s = .fault (.fontRegionWrite s.i)) ∧
      (0x04F < s.i.toNat → s.i.toNat + x.toNat ≤ 0xFFF → ∃ t : State,
        exec (.storeRegs x) s = .next t ∧ t = { s with mem := t.mem } ∧
        (∀ k : Nibble, k ≤ x → t.read (s.i.toNat + k.toNat) = s.getV k) ∧
        ∀ a, (a < s.i.toNat ∨ s.i.toNat + x.toNat < a) → t.read a = s.read a)

/-- Rule R125, load-registers: `v[0]` to `v[x]` from `mem[i ..]`, or a fault with nothing written. -/
def Obligations.LoadRegistersReadsTheBlock : Prop :=
  ∀ x : Nibble, decodeWord (0xF#4 ++ x ++ 0x65#8) = .ok (.loadRegs x) ∧
    ∀ s : State,
      (0xFFF < s.i.toNat + x.toNat →
        exec (.loadRegs x) s = .fault (.outOfBoundsAccess (BitVec.ofNat 16 (max s.i.toNat 0x1000)))) ∧
      (s.i.toNat + x.toNat ≤ 0xFFF → ∃ t : State,
        exec (.loadRegs x) s = .next t ∧ t = { s with v := t.v } ∧
        ∀ k, t.getV k = if k ≤ x then s.read (s.i.toNat + k.toNat) else s.getV k)

/-- The round trip rule R125 quotes: storing `v[0]` to `v[x]` at `i`, then loading from the same address and range into
any registers, gives the stored values. -/
def Obligations.StoreThenLoadRegisters : Prop :=
  ∀ (x : Nibble) (s t u : State), exec (.storeRegs x) s = .next t → (∀ a, u.read a = t.read a) → u.i = t.i → ∃ w : State,
    exec (.loadRegs x) u = .next w ∧ ∀ k, k ≤ x → w.getV k = s.getV k

/-- A stored byte is seen by the very next fetch (rule R42, which the spec marks as derived, D34): after store-registers, a fetch at `i + k` reads the word
`v[k] ++ v[k+1]`. -/
def Obligations.StoreIsSeenByFetch : Prop :=
  ∀ (x k : Nibble) (s t u : State), exec (.storeRegs x) s = .next t → k < x → (∀ a, u.read a = t.read a) →
    u.pc.toNat = s.i.toNat + k.toNat → u.fetch = .ok (s.getV k ++ s.getV (k + 0x1#4))

/-! ### Display (44_display.md) -/

/-- Rule R130, clear-screen. -/
def Obligations.ClearScreenClearsAll : Prop :=
  decodeWord 0x00E0#16 = .ok .cls ∧
  ∀ s : State, ∃ t : State, exec .cls s = .next t ∧ t = { s with disp := t.disp } ∧
    ∀ y x, Display.get t.disp y x = false

/-- Rule R131, draw: every pixel the sprite sets is toggled and no other; `v[0xF]` tells whether some pixel went from 1
to 0; or OutOfBoundsAccess with nothing written. -/
def Obligations.DrawXorsTheSprite : Prop :=
  ∀ x y n : Nibble, decodeWord (0xD#4 ++ x ++ y ++ n) = .ok (.drw x y n) ∧
    ∀ s : State,
      (n ≠ 0x0#4 → 0xFFF < s.i.toNat + n.toNat - 1 →
        exec (.drw x y n) s = .fault (.outOfBoundsAccess (BitVec.ofNat 16 (max s.i.toNat 0x1000)))) ∧
      ((n = 0x0#4 ∨ s.i.toNat + n.toNat - 1 ≤ 0xFFF) → ∃ t : State,
        exec (.drw x y n) s = .next t ∧ t = { s with v := t.v, disp := t.disp } ∧
        (∀ py px, (SpriteSets s x y n py px → Display.get t.disp py px = !(Display.get s.disp py px)) ∧
          (¬ SpriteSets s x y n py px → Display.get t.disp py px = Display.get s.disp py px)) ∧
        (∀ k, k ≠ 0xF#4 → t.getV k = s.getV k) ∧
        (t.getV 0xF#4 = 0x01#8 ∨ t.getV 0xF#4 = 0x00#8) ∧
        (t.getV 0xF#4 = 0x01#8 ↔ ∃ py px, Display.get s.disp py px = true ∧ Display.get t.disp py px = false))

/-- Drawing the same sprite at the same position twice restores the display, and the second draw reports a collision
exactly when the sprite sets a pixel that was off before the first (rule R131's pseudocode; its remark on the second
draw's flag leaves that condition out, log entry 16). -/
def Obligations.DrawTwiceRestores : Prop :=
  ∀ (x y n : Nibble) (s t : State), exec (.drw x y n) s = .next t →
    (t.getV x).toNat % 64 = (s.getV x).toNat % 64 → (t.getV y).toNat % 32 = (s.getV y).toNat % 32 → ∃ u : State,
      exec (.drw x y n) t = .next u ∧ u.disp = s.disp ∧
      (u.getV 0xF#4 = 0x01#8 ↔ ∃ py px, SpriteSets s x y n py px ∧ Display.get s.disp py px = false)

/-! ### Keypad and timers (45_keypad_timers.md) -/

/-- Rules R140, R141: the skips on the key `v[x] & 0x0F`. -/
def Obligations.SkipOnKey : Prop :=
  ∀ x : Nibble, decodeWord (0xE#4 ++ x ++ 0x9E#8) = .ok (.skp x) ∧ decodeWord (0xE#4 ++ x ++ 0xA1#8) = .ok (.sknp x) ∧
    ∀ (s : State) (k : Nibble), k.toNat = (s.getV x).toNat % 16 →
      exec (.skp x) s = .next { s with pc := if s.key k = true then s.pc + 2#16 else s.pc } ∧
      exec (.sknp x) s = .next { s with pc := if s.key k = false then s.pc + 2#16 else s.pc }

/-- Rules R142, R144, R145: the timer moves. -/
def Obligations.TimerMoves : Prop :=
  ∀ x : Nibble, decodeWord (0xF#4 ++ x ++ 0x07#8) = .ok (.ldVxDt x) ∧ decodeWord (0xF#4 ++ x ++ 0x15#8) = .ok (.ldDtVx x) ∧
    decodeWord (0xF#4 ++ x ++ 0x18#8) = .ok (.ldStVx x) ∧
    ∀ s : State,
      (∃ t : State, exec (.ldVxDt x) s = .next t ∧ t = { s with v := t.v } ∧
        ∀ k, t.getV k = if k = x then s.dt else s.getV k) ∧
      exec (.ldDtVx x) s = .next { s with dt := s.getV x } ∧
      exec (.ldStVx x) s = .next { s with st := s.getV x }

/-- Rule R143, wait-for-key: the least pressed key completes it at once; with no key down the CORE enters the key wait
and, seen from the step that fetched it, `pc` stays at the instruction. -/
def Obligations.WaitForKey : Prop :=
  ∀ x : Nibble, decodeWord (0xF#4 ++ x ++ 0x0A#8) = .ok (.ldVxK x) ∧
    (∀ (s : State) (k : Nibble), s.key k = true → (∀ j, j < k → s.key j = false) → ∃ t : State,
      exec (.ldVxK x) s = .next t ∧ t = { s with v := t.v } ∧
      ∀ r, t.getV r = if r = x then k.setWidth 8 else s.getV r) ∧
    (∀ s : State, (∀ k, s.key k = false) →
      exec (.ldVxK x) s = .next { s with wait := true, waitX := x, pc := s.pc - 2#16 }) ∧
    (∀ s : State, s.wait = false → s.pc.toNat ≤ 0xFFE → s.word s.pc.toNat = 0xF#4 ++ x ++ 0x0A#8 →
      (∀ k, s.key k = false) → step s = .next { s with wait := true, waitX := x })

/-! ### Host events (40_step_cycle.md) and the end of a run -/

/-- Rule R76, tick_timers. -/
def Obligations.TickDecrementsBothTimers : Prop :=
  ∀ s : State, tickTimers s =
    { s with dt := BitVec.ofNat 8 (s.dt.toNat - 1), st := BitVec.ofNat 8 (s.st.toNat - 1) }

/-- Rule R77, set_key: one key for an index in 0 to 15 and nothing else; no transition for a larger index. -/
def Obligations.SetKeyWritesOneKey : Prop :=
  ∀ (index : Nat) (p : Bool) (s : State),
    (index < 16 → ∃ t : State, setKeyEvent index p s = .next t ∧ t = { s with keys := t.keys } ∧
      ∀ k : Fin 16, t.keys[k] = if k.val = index then p else s.keys[k]) ∧
    (16 ≤ index → ∀ t, setKeyEvent index p s ≠ .next t)

/-- Rule R44, load_image after reset: byte `k` to `mem[0x200 + k]` and nothing else; no transition for an image of more
than 3584 bytes, nor after the first step. That a second load before the first step has no transition either is the
model's reading of rule R175 (c), 'once' (log entry 9). -/
def Obligations.LoadImageCopiesTheImage : Prop :=
  ∀ (bytes : List Byte) (c : Session),
    (c.phase = .fresh → bytes.length ≤ 3584 → ∃ d : Session, c.apply (.loadImage bytes) = .next d ∧
      d.phase = .loaded ∧ d.core = { c.core with mem := d.core.mem } ∧
      (∀ k, k < bytes.length → some (d.core.read (0x200 + k)) = bytes[k]?) ∧
      ∀ a, (a < 0x200 ∨ 0x200 + bytes.length ≤ a) → d.core.read a = c.core.read a) ∧
    (3584 < bytes.length → ∀ d, c.apply (.loadImage bytes) ≠ .next d) ∧
    (c.phase = .loaded → ∀ d, c.apply (.loadImage bytes) ≠ .next d) ∧
    (c.phase = .running → ∀ d, c.apply (.loadImage bytes) ≠ .next d)

/-- Rule R170: reset sets every piece of the spec's state to its reset value, whatever it was, a pending key wait
included; an image may be loaded again after it. The machine's FONT_TABLE is kept (log entry 19), and so is the model's
own count of random bytes (log entry 2). -/
def Obligations.ResetEventResetsEverything : Prop :=
  ∀ c : Session, ∃ d : Session, c.apply .reset = .next d ∧ d.phase = .fresh ∧
    d.core = { State.resetWith c.core.font with randIdx := c.core.randIdx }

/-- In a finished state (the convention rule R178 proposes, D36: no key wait, a jump to itself at `pc`) every step leaves the whole state, and
ticks and keys leave it finished. -/
def Obligations.FinishedStaysFinished : Prop :=
  ∀ s : State, Finished s → step s = .next s ∧ Finished (tickTimers s) ∧ ∀ k p, Finished (s.setKey k p)
end

