-- ==== Sys2Proof/Laws/Decode.lean ====
section
/-! SUPPORT. The fields of a word built from fields, and a word built again from its fields (rules R51 to R53). -/

namespace Sys2Proof

/-! ### Words of the shape op, nnn -/

theorem opField_addr (a : Nibble) (nnn : Imm12) : opField (a ++ nnn) = a :=
  BitVec.extractLsb'_append_eq_left

theorem nnnField_addr (a : Nibble) (nnn : Imm12) : nnnField (a ++ nnn) = nnn :=
  BitVec.extractLsb'_append_eq_right

/-! ### Words of the shape op, x, nn -/

theorem opField_imm (a x : Nibble) (nn : Byte) : opField (a ++ x ++ nn) = a :=
  (BitVec.extractLsb'_append_eq_of_le (by decide)).trans BitVec.extractLsb'_append_eq_left

theorem xField_imm (a x : Nibble) (nn : Byte) : xField (a ++ x ++ nn) = x :=
  (BitVec.extractLsb'_append_eq_of_le (by decide)).trans BitVec.extractLsb'_append_eq_right

theorem nnField_imm (a x : Nibble) (nn : Byte) : nnField (a ++ x ++ nn) = nn :=
  BitVec.extractLsb'_append_eq_right

/-! ### Words of the shape op, x, y, n -/

theorem opField_reg (a x y n : Nibble) : opField (a ++ x ++ y ++ n) = a :=
  (BitVec.extractLsb'_append_eq_of_le (by decide)).trans ((BitVec.extractLsb'_append_eq_of_le (by decide)).trans BitVec.extractLsb'_append_eq_left)

theorem xField_reg (a x y n : Nibble) : xField (a ++ x ++ y ++ n) = x :=
  (BitVec.extractLsb'_append_eq_of_le (by decide)).trans ((BitVec.extractLsb'_append_eq_of_le (by decide)).trans BitVec.extractLsb'_append_eq_right)

theorem yField_reg (a x y n : Nibble) : yField (a ++ x ++ y ++ n) = y :=
  (BitVec.extractLsb'_append_eq_of_le (by decide)).trans BitVec.extractLsb'_append_eq_right

theorem nField_reg (a x y n : Nibble) : nField (a ++ x ++ y ++ n) = n :=
  BitVec.extractLsb'_append_eq_right

/-! ### A word from its fields -/

theorem addr_fields (w : Word) : opField w ++ nnnField w = w :=
  BitVec.extractLsb'_append_extractLsb' (w := 4) (len := 12)

theorem nnn_fields (w : Word) : xField w ++ nnField w = nnnField w :=
  BitVec.extractLsb'_append_extractLsb'_eq_extractLsb' (by rfl)

theorem nn_fields (w : Word) : yField w ++ nField w = nnField w :=
  BitVec.extractLsb'_append_extractLsb'_eq_extractLsb' (by rfl)

theorem imm_fields (w : Word) : opField w ++ xField w ++ nnField w = w := by
  conv_rhs => rw [← addr_fields w, ← nnn_fields w]
  exact BitVec.append_assoc

theorem reg_fields (w : Word) : opField w ++ xField w ++ yField w ++ nField w = w := by
  conv_rhs => rw [← imm_fields w, ← nn_fields w]
  exact BitVec.append_assoc

/-! ### The decoder says yes or no by name -/

/-- A word is decoded exactly to what the nibble dispatch names. -/
theorem decodeWord_ok_iff (w : Word) (i : Instr) : decodeWord w = .ok i ↔ dispatchNibbles w = some i := by
  unfold decodeWord
  split <;> rename_i h <;> simp [h]

/-- A rejection names the word. -/
theorem decodeWord_error (w : Word) (e : DecodeError) (h : decodeWord w = .error e) : e = .unknownOpcode w := by
  unfold decodeWord at h
  split at h
  · cases h
  · injection h with h; exact h.symm

end Sys2Proof
end

