-- ==== Sys2Proof/Laws/Memory.lean ====
section
/-! SUPPORT. The laws of main memory: a read after a write, and that every memory operation keeps the canonical form. -/

namespace Sys2Proof.Machine

/-! ### Reading -/

theorem Memory.read_filter_self (font : FontTable) (m : Memory) (a : Nat) :
    Memory.read font (m.filter fun c => c.1 != a) a = resetByte font a := by
  induction m with
  | nil => rfl
  | cons c m ih =>
    obtain ⟨k, b⟩ := c
    by_cases h : k = a
    · simpa [h] using ih
    · simp [h, Memory.read, ih]

theorem Memory.read_filter_ne (font : FontTable) (m : Memory) {a b : Nat} (hab : b ≠ a) :
    Memory.read font (m.filter fun c => c.1 != a) b = Memory.read font m b := by
  induction m with
  | nil => rfl
  | cons c m ih =>
    obtain ⟨k, v⟩ := c
    by_cases h : k = a
    · have : k ≠ b := fun e => hab (e ▸ h)
      simp only [h, bne_self_eq_false, Bool.false_eq_true, not_false_eq_true, List.filter_cons_of_neg, ih]
      rw [Memory.read, if_neg (h ▸ this)]
    · have : (k != a) = true := by simpa using h
      rw [List.filter_cons_of_pos (by simpa using this), Memory.read, Memory.read, ih]

theorem Memory.read_place_ne (font : FontTable) (m : Memory) {a b : Nat} (v : Byte) (hab : b ≠ a) :
    (Memory.place a v m).read font b = m.read font b := by
  induction m with
  | nil => simp [Memory.place, Memory.read, hab.symm]
  | cons c m ih =>
    obtain ⟨k, w⟩ := c
    rw [Memory.place]
    split
    · rw [Memory.read, if_neg hab.symm]
    · rw [Memory.read, Memory.read, ih]

theorem Memory.read_place_self (font : FontTable) (m : Memory) (a : Nat) (v : Byte) (h : ∀ c ∈ m, c.1 ≠ a) :
    (Memory.place a v m).read font a = v := by
  induction m with
  | nil => simp [Memory.place, Memory.read]
  | cons c m ih =>
    obtain ⟨k, w⟩ := c
    rw [Memory.place]
    split
    · simp [Memory.read]
    · rw [Memory.read, if_neg (h (k, w) (by simp))]
      exact ih fun c hc => h c (by simp [hc])

/-- A read after a write: the byte written at its address, every other byte as before (rule R39). -/
theorem Memory.read_write (font : FontTable) (m : Memory) (a b : Nat) (v : Byte) :
    (m.write font a v).read font b = if b = a then v else m.read font b := by
  unfold Memory.write
  by_cases hab : b = a
  · subst hab
    split
    · next h => simp [Memory.read_filter_self, h]
    · simp only [if_true]
      exact Memory.read_place_self font _ _ _ fun c hc => by simpa using (List.mem_filter.mp hc).2
  · split
    · rw [Memory.read_filter_ne font m hab]
    · rw [Memory.read_place_ne font _ v hab, Memory.read_filter_ne font m hab]

/-- A read after a write of several bytes: byte `k` at `a + k`, every other byte as before. -/
theorem Memory.read_writeBytes (font : FontTable) (m : Memory) (a b : Nat) (bs : List Byte) :
    (m.writeBytes font a bs).read font b = if h : a ≤ b ∧ b < a + bs.length then bs[b - a]'(by omega) else m.read font b := by
  induction bs generalizing m a with
  | nil => rw [Memory.writeBytes, dif_neg (by simp)]
  | cons v bs ih =>
    rw [Memory.writeBytes, ih]
    by_cases h : a + 1 ≤ b ∧ b < a + 1 + bs.length
    · have h' : a ≤ b ∧ b < a + (v :: bs).length := by simp only [List.length_cons]; omega
      rw [dif_pos h, dif_pos h']
      have : b - a = (b - (a + 1)) + 1 := by omega
      simp [this]
    · rw [dif_neg h, Memory.read_write]
      by_cases hb : b = a
      · subst hb; simp
      · have h' : ¬(a ≤ b ∧ b < a + (v :: bs).length) := by simp only [List.length_cons]; omega
        rw [dif_neg h', if_neg hb]

/-! ### The canonical form -/

theorem Memory.risingFrom_mono {m : Memory} {lo lo' : Nat} (h : lo' ≤ lo) (hm : m.risingFrom lo = true) :
    m.risingFrom lo' = true := by
  cases m with
  | nil => rfl
  | cons c m =>
    obtain ⟨k, b⟩ := c
    simp only [Memory.risingFrom, Bool.and_eq_true, decide_eq_true_eq] at hm ⊢
    exact ⟨by omega, hm.2⟩

theorem Memory.risingFrom_filter {m : Memory} {lo : Nat} (p : Host.Cell → Bool) (hm : m.risingFrom lo = true) :
    Memory.risingFrom lo (m.filter p) = true := by
  induction m generalizing lo with
  | nil => rfl
  | cons c m ih =>
    obtain ⟨k, b⟩ := c
    simp only [Memory.risingFrom, Bool.and_eq_true, decide_eq_true_eq] at hm
    by_cases hp : p (k, b) = true
    · rw [List.filter_cons_of_pos hp]
      simp only [Memory.risingFrom, Bool.and_eq_true, decide_eq_true_eq]
      exact ⟨hm.1, ih hm.2⟩
    · rw [List.filter_cons_of_neg hp]
      exact ih (Memory.risingFrom_mono (by omega) hm.2)

theorem Memory.risingFrom_place {m : Memory} {lo a : Nat} (v : Byte) (hlo : lo ≤ a) (hm : m.risingFrom lo = true)
    (hne : ∀ c ∈ m, c.1 ≠ a) : (Memory.place a v m).risingFrom lo = true := by
  induction m generalizing lo with
  | nil => simp [Memory.place, Memory.risingFrom, hlo]
  | cons c m ih =>
    obtain ⟨k, w⟩ := c
    simp only [Memory.risingFrom, Bool.and_eq_true, decide_eq_true_eq] at hm
    have hk : k ≠ a := hne (k, w) (by simp)
    rw [Memory.place]
    split
    · simp only [Memory.risingFrom, Bool.and_eq_true, decide_eq_true_eq]
      exact ⟨hlo, by omega, hm.2⟩
    · simp only [Memory.risingFrom, Bool.and_eq_true, decide_eq_true_eq]
      exact ⟨hm.1, ih (by omega) hm.2 fun c hc => hne c (by simp [hc])⟩

theorem Memory.mem_place {m : Memory} {a : Nat} {v : Byte} {c : Host.Cell} (h : c ∈ Memory.place a v m) :
    c = (a, v) ∨ c ∈ m := by
  induction m with
  | nil => exact .inl (by simpa [Memory.place] using h)
  | cons d m ih =>
    obtain ⟨k, w⟩ := d
    rw [Memory.place] at h
    split at h
    · exact List.mem_cons.mp h
    · rcases List.mem_cons.mp h with h | h
      · exact .inr (by simp [h])
      · exact (ih h).imp id fun h => by simp [h]

/-- What the canonical form says, cell by cell. -/
theorem Memory.wf_iff (font : FontTable) (m : Memory) :
    m.wf font = true ↔ m.risingFrom 0 = true ∧ ∀ c ∈ m, c.1 ≤ 0xFFF ∧ c.2 ≠ resetByte font c.1 := by
  simp [Memory.wf, Bool.and_eq_true, List.all_eq_true]

theorem Memory.wf_reset (table : FontTable) : Memory.wf table (State.resetWith table).mem = true := rfl

/-- Writing a byte of the address space keeps the canonical form. -/
theorem Memory.wf_write {font : FontTable} {m : Memory} {a : Nat} (v : Byte) (hm : m.wf font = true) (ha : a ≤ 0xFFF) :
    (m.write font a v).wf font = true := by
  rw [Memory.wf_iff] at hm ⊢
  have hr := Memory.risingFrom_filter (fun c => c.1 != a) hm.1
  have hc : ∀ c ∈ m.filter (fun c => c.1 != a), c.1 ≤ 0xFFF ∧ c.2 ≠ resetByte font c.1 :=
    fun c h => hm.2 c (List.mem_filter.mp h).1
  unfold Memory.write
  split
  · exact ⟨hr, hc⟩
  · next hv =>
    refine ⟨Memory.risingFrom_place v (Nat.zero_le a) hr fun c h => by simpa using (List.mem_filter.mp h).2, ?_⟩
    intro c h
    rcases Memory.mem_place h with rfl | h
    · exact ⟨ha, hv⟩
    · exact hc c h

/-- Writing several bytes of the address space keeps the canonical form. -/
theorem Memory.wf_writeBytes {font : FontTable} {m : Memory} {a : Nat} (bs : List Byte) (hm : m.wf font = true)
    (ha : a + bs.length ≤ 0x1000) : (m.writeBytes font a bs).wf font = true := by
  induction bs generalizing m a with
  | nil => exact hm
  | cons v bs ih =>
    simp only [List.length_cons] at ha
    exact ih (Memory.wf_write v hm (by omega)) (by omega)

end Sys2Proof.Machine
end

