-- ==== Sys2Proof/Laws/State.lean ====
section
/-! SUPPORT. What each named update of the state does to each field: one lemma per field per update, true by unfolding. -/

namespace Sys2Proof.Machine

/-! ### setV -/

@[simp] theorem State.setV_v (s : State) (x : Nibble) (b : Byte) : (s.setV x b).v = s.v.set x.toNat b x.isLt := rfl
@[simp] theorem State.setV_i (s : State) (x : Nibble) (b : Byte) : (s.setV x b).i = s.i := rfl
@[simp] theorem State.setV_pc (s : State) (x : Nibble) (b : Byte) : (s.setV x b).pc = s.pc := rfl
@[simp] theorem State.setV_sp (s : State) (x : Nibble) (b : Byte) : (s.setV x b).sp = s.sp := rfl
@[simp] theorem State.setV_stack (s : State) (x : Nibble) (b : Byte) : (s.setV x b).stack = s.stack := rfl
@[simp] theorem State.setV_dt (s : State) (x : Nibble) (b : Byte) : (s.setV x b).dt = s.dt := rfl
@[simp] theorem State.setV_st (s : State) (x : Nibble) (b : Byte) : (s.setV x b).st = s.st := rfl
@[simp] theorem State.setV_mem (s : State) (x : Nibble) (b : Byte) : (s.setV x b).mem = s.mem := rfl
@[simp] theorem State.setV_disp (s : State) (x : Nibble) (b : Byte) : (s.setV x b).disp = s.disp := rfl
@[simp] theorem State.setV_keys (s : State) (x : Nibble) (b : Byte) : (s.setV x b).keys = s.keys := rfl
@[simp] theorem State.setV_wait (s : State) (x : Nibble) (b : Byte) : (s.setV x b).wait = s.wait := rfl
@[simp] theorem State.setV_waitX (s : State) (x : Nibble) (b : Byte) : (s.setV x b).waitX = s.waitX := rfl
@[simp] theorem State.setV_randIdx (s : State) (x : Nibble) (b : Byte) : (s.setV x b).randIdx = s.randIdx := rfl
@[simp] theorem State.setV_font (s : State) (x : Nibble) (b : Byte) : (s.setV x b).font = s.font := rfl

/-! ### setPc -/

@[simp] theorem State.setPc_v (s : State) (a : Word) : (s.setPc a).v = s.v := rfl
@[simp] theorem State.setPc_i (s : State) (a : Word) : (s.setPc a).i = s.i := rfl
@[simp] theorem State.setPc_pc (s : State) (a : Word) : (s.setPc a).pc = a := rfl
@[simp] theorem State.setPc_sp (s : State) (a : Word) : (s.setPc a).sp = s.sp := rfl
@[simp] theorem State.setPc_stack (s : State) (a : Word) : (s.setPc a).stack = s.stack := rfl
@[simp] theorem State.setPc_dt (s : State) (a : Word) : (s.setPc a).dt = s.dt := rfl
@[simp] theorem State.setPc_st (s : State) (a : Word) : (s.setPc a).st = s.st := rfl
@[simp] theorem State.setPc_mem (s : State) (a : Word) : (s.setPc a).mem = s.mem := rfl
@[simp] theorem State.setPc_disp (s : State) (a : Word) : (s.setPc a).disp = s.disp := rfl
@[simp] theorem State.setPc_keys (s : State) (a : Word) : (s.setPc a).keys = s.keys := rfl
@[simp] theorem State.setPc_wait (s : State) (a : Word) : (s.setPc a).wait = s.wait := rfl
@[simp] theorem State.setPc_waitX (s : State) (a : Word) : (s.setPc a).waitX = s.waitX := rfl
@[simp] theorem State.setPc_randIdx (s : State) (a : Word) : (s.setPc a).randIdx = s.randIdx := rfl
@[simp] theorem State.setPc_font (s : State) (a : Word) : (s.setPc a).font = s.font := rfl

/-! ### setI -/

@[simp] theorem State.setI_v (s : State) (a : Word) : (s.setI a).v = s.v := rfl
@[simp] theorem State.setI_i (s : State) (a : Word) : (s.setI a).i = a := rfl
@[simp] theorem State.setI_pc (s : State) (a : Word) : (s.setI a).pc = s.pc := rfl
@[simp] theorem State.setI_sp (s : State) (a : Word) : (s.setI a).sp = s.sp := rfl
@[simp] theorem State.setI_stack (s : State) (a : Word) : (s.setI a).stack = s.stack := rfl
@[simp] theorem State.setI_dt (s : State) (a : Word) : (s.setI a).dt = s.dt := rfl
@[simp] theorem State.setI_st (s : State) (a : Word) : (s.setI a).st = s.st := rfl
@[simp] theorem State.setI_mem (s : State) (a : Word) : (s.setI a).mem = s.mem := rfl
@[simp] theorem State.setI_disp (s : State) (a : Word) : (s.setI a).disp = s.disp := rfl
@[simp] theorem State.setI_keys (s : State) (a : Word) : (s.setI a).keys = s.keys := rfl
@[simp] theorem State.setI_wait (s : State) (a : Word) : (s.setI a).wait = s.wait := rfl
@[simp] theorem State.setI_waitX (s : State) (a : Word) : (s.setI a).waitX = s.waitX := rfl
@[simp] theorem State.setI_randIdx (s : State) (a : Word) : (s.setI a).randIdx = s.randIdx := rfl
@[simp] theorem State.setI_font (s : State) (a : Word) : (s.setI a).font = s.font := rfl

/-! ### setDt -/

@[simp] theorem State.setDt_v (s : State) (b : Byte) : (s.setDt b).v = s.v := rfl
@[simp] theorem State.setDt_i (s : State) (b : Byte) : (s.setDt b).i = s.i := rfl
@[simp] theorem State.setDt_pc (s : State) (b : Byte) : (s.setDt b).pc = s.pc := rfl
@[simp] theorem State.setDt_sp (s : State) (b : Byte) : (s.setDt b).sp = s.sp := rfl
@[simp] theorem State.setDt_stack (s : State) (b : Byte) : (s.setDt b).stack = s.stack := rfl
@[simp] theorem State.setDt_dt (s : State) (b : Byte) : (s.setDt b).dt = b := rfl
@[simp] theorem State.setDt_st (s : State) (b : Byte) : (s.setDt b).st = s.st := rfl
@[simp] theorem State.setDt_mem (s : State) (b : Byte) : (s.setDt b).mem = s.mem := rfl
@[simp] theorem State.setDt_disp (s : State) (b : Byte) : (s.setDt b).disp = s.disp := rfl
@[simp] theorem State.setDt_keys (s : State) (b : Byte) : (s.setDt b).keys = s.keys := rfl
@[simp] theorem State.setDt_wait (s : State) (b : Byte) : (s.setDt b).wait = s.wait := rfl
@[simp] theorem State.setDt_waitX (s : State) (b : Byte) : (s.setDt b).waitX = s.waitX := rfl
@[simp] theorem State.setDt_randIdx (s : State) (b : Byte) : (s.setDt b).randIdx = s.randIdx := rfl
@[simp] theorem State.setDt_font (s : State) (b : Byte) : (s.setDt b).font = s.font := rfl

/-! ### setSt -/

@[simp] theorem State.setSt_v (s : State) (b : Byte) : (s.setSt b).v = s.v := rfl
@[simp] theorem State.setSt_i (s : State) (b : Byte) : (s.setSt b).i = s.i := rfl
@[simp] theorem State.setSt_pc (s : State) (b : Byte) : (s.setSt b).pc = s.pc := rfl
@[simp] theorem State.setSt_sp (s : State) (b : Byte) : (s.setSt b).sp = s.sp := rfl
@[simp] theorem State.setSt_stack (s : State) (b : Byte) : (s.setSt b).stack = s.stack := rfl
@[simp] theorem State.setSt_dt (s : State) (b : Byte) : (s.setSt b).dt = s.dt := rfl
@[simp] theorem State.setSt_st (s : State) (b : Byte) : (s.setSt b).st = b := rfl
@[simp] theorem State.setSt_mem (s : State) (b : Byte) : (s.setSt b).mem = s.mem := rfl
@[simp] theorem State.setSt_disp (s : State) (b : Byte) : (s.setSt b).disp = s.disp := rfl
@[simp] theorem State.setSt_keys (s : State) (b : Byte) : (s.setSt b).keys = s.keys := rfl
@[simp] theorem State.setSt_wait (s : State) (b : Byte) : (s.setSt b).wait = s.wait := rfl
@[simp] theorem State.setSt_waitX (s : State) (b : Byte) : (s.setSt b).waitX = s.waitX := rfl
@[simp] theorem State.setSt_randIdx (s : State) (b : Byte) : (s.setSt b).randIdx = s.randIdx := rfl
@[simp] theorem State.setSt_font (s : State) (b : Byte) : (s.setSt b).font = s.font := rfl

/-! ### setMem -/

@[simp] theorem State.setMem_v (s : State) (m : Memory) : (s.setMem m).v = s.v := rfl
@[simp] theorem State.setMem_i (s : State) (m : Memory) : (s.setMem m).i = s.i := rfl
@[simp] theorem State.setMem_pc (s : State) (m : Memory) : (s.setMem m).pc = s.pc := rfl
@[simp] theorem State.setMem_sp (s : State) (m : Memory) : (s.setMem m).sp = s.sp := rfl
@[simp] theorem State.setMem_stack (s : State) (m : Memory) : (s.setMem m).stack = s.stack := rfl
@[simp] theorem State.setMem_dt (s : State) (m : Memory) : (s.setMem m).dt = s.dt := rfl
@[simp] theorem State.setMem_st (s : State) (m : Memory) : (s.setMem m).st = s.st := rfl
@[simp] theorem State.setMem_mem (s : State) (m : Memory) : (s.setMem m).mem = m := rfl
@[simp] theorem State.setMem_disp (s : State) (m : Memory) : (s.setMem m).disp = s.disp := rfl
@[simp] theorem State.setMem_keys (s : State) (m : Memory) : (s.setMem m).keys = s.keys := rfl
@[simp] theorem State.setMem_wait (s : State) (m : Memory) : (s.setMem m).wait = s.wait := rfl
@[simp] theorem State.setMem_waitX (s : State) (m : Memory) : (s.setMem m).waitX = s.waitX := rfl
@[simp] theorem State.setMem_randIdx (s : State) (m : Memory) : (s.setMem m).randIdx = s.randIdx := rfl
@[simp] theorem State.setMem_font (s : State) (m : Memory) : (s.setMem m).font = s.font := rfl

/-! ### setDisp -/

@[simp] theorem State.setDisp_v (s : State) (d : Display) : (s.setDisp d).v = s.v := rfl
@[simp] theorem State.setDisp_i (s : State) (d : Display) : (s.setDisp d).i = s.i := rfl
@[simp] theorem State.setDisp_pc (s : State) (d : Display) : (s.setDisp d).pc = s.pc := rfl
@[simp] theorem State.setDisp_sp (s : State) (d : Display) : (s.setDisp d).sp = s.sp := rfl
@[simp] theorem State.setDisp_stack (s : State) (d : Display) : (s.setDisp d).stack = s.stack := rfl
@[simp] theorem State.setDisp_dt (s : State) (d : Display) : (s.setDisp d).dt = s.dt := rfl
@[simp] theorem State.setDisp_st (s : State) (d : Display) : (s.setDisp d).st = s.st := rfl
@[simp] theorem State.setDisp_mem (s : State) (d : Display) : (s.setDisp d).mem = s.mem := rfl
@[simp] theorem State.setDisp_disp (s : State) (d : Display) : (s.setDisp d).disp = d := rfl
@[simp] theorem State.setDisp_keys (s : State) (d : Display) : (s.setDisp d).keys = s.keys := rfl
@[simp] theorem State.setDisp_wait (s : State) (d : Display) : (s.setDisp d).wait = s.wait := rfl
@[simp] theorem State.setDisp_waitX (s : State) (d : Display) : (s.setDisp d).waitX = s.waitX := rfl
@[simp] theorem State.setDisp_randIdx (s : State) (d : Display) : (s.setDisp d).randIdx = s.randIdx := rfl
@[simp] theorem State.setDisp_font (s : State) (d : Display) : (s.setDisp d).font = s.font := rfl

/-! ### startWait -/

@[simp] theorem State.startWait_v (s : State) (x : Nibble) : (s.startWait x).v = s.v := rfl
@[simp] theorem State.startWait_i (s : State) (x : Nibble) : (s.startWait x).i = s.i := rfl
@[simp] theorem State.startWait_pc (s : State) (x : Nibble) : (s.startWait x).pc = s.pc := rfl
@[simp] theorem State.startWait_sp (s : State) (x : Nibble) : (s.startWait x).sp = s.sp := rfl
@[simp] theorem State.startWait_stack (s : State) (x : Nibble) : (s.startWait x).stack = s.stack := rfl
@[simp] theorem State.startWait_dt (s : State) (x : Nibble) : (s.startWait x).dt = s.dt := rfl
@[simp] theorem State.startWait_st (s : State) (x : Nibble) : (s.startWait x).st = s.st := rfl
@[simp] theorem State.startWait_mem (s : State) (x : Nibble) : (s.startWait x).mem = s.mem := rfl
@[simp] theorem State.startWait_disp (s : State) (x : Nibble) : (s.startWait x).disp = s.disp := rfl
@[simp] theorem State.startWait_keys (s : State) (x : Nibble) : (s.startWait x).keys = s.keys := rfl
@[simp] theorem State.startWait_wait (s : State) (x : Nibble) : (s.startWait x).wait = true := rfl
@[simp] theorem State.startWait_waitX (s : State) (x : Nibble) : (s.startWait x).waitX = x := rfl
@[simp] theorem State.startWait_randIdx (s : State) (x : Nibble) : (s.startWait x).randIdx = s.randIdx := rfl
@[simp] theorem State.startWait_font (s : State) (x : Nibble) : (s.startWait x).font = s.font := rfl

/-! ### endWait -/

@[simp] theorem State.endWait_v (s : State) : (s.endWait).v = s.v := rfl
@[simp] theorem State.endWait_i (s : State) : (s.endWait).i = s.i := rfl
@[simp] theorem State.endWait_pc (s : State) : (s.endWait).pc = s.pc := rfl
@[simp] theorem State.endWait_sp (s : State) : (s.endWait).sp = s.sp := rfl
@[simp] theorem State.endWait_stack (s : State) : (s.endWait).stack = s.stack := rfl
@[simp] theorem State.endWait_dt (s : State) : (s.endWait).dt = s.dt := rfl
@[simp] theorem State.endWait_st (s : State) : (s.endWait).st = s.st := rfl
@[simp] theorem State.endWait_mem (s : State) : (s.endWait).mem = s.mem := rfl
@[simp] theorem State.endWait_disp (s : State) : (s.endWait).disp = s.disp := rfl
@[simp] theorem State.endWait_keys (s : State) : (s.endWait).keys = s.keys := rfl
@[simp] theorem State.endWait_wait (s : State) : (s.endWait).wait = false := rfl
@[simp] theorem State.endWait_waitX (s : State) : (s.endWait).waitX = s.waitX := rfl
@[simp] theorem State.endWait_randIdx (s : State) : (s.endWait).randIdx = s.randIdx := rfl
@[simp] theorem State.endWait_font (s : State) : (s.endWait).font = s.font := rfl

/-! ### countRand -/

@[simp] theorem State.countRand_v (s : State) : (s.countRand).v = s.v := rfl
@[simp] theorem State.countRand_i (s : State) : (s.countRand).i = s.i := rfl
@[simp] theorem State.countRand_pc (s : State) : (s.countRand).pc = s.pc := rfl
@[simp] theorem State.countRand_sp (s : State) : (s.countRand).sp = s.sp := rfl
@[simp] theorem State.countRand_stack (s : State) : (s.countRand).stack = s.stack := rfl
@[simp] theorem State.countRand_dt (s : State) : (s.countRand).dt = s.dt := rfl
@[simp] theorem State.countRand_st (s : State) : (s.countRand).st = s.st := rfl
@[simp] theorem State.countRand_mem (s : State) : (s.countRand).mem = s.mem := rfl
@[simp] theorem State.countRand_disp (s : State) : (s.countRand).disp = s.disp := rfl
@[simp] theorem State.countRand_keys (s : State) : (s.countRand).keys = s.keys := rfl
@[simp] theorem State.countRand_wait (s : State) : (s.countRand).wait = s.wait := rfl
@[simp] theorem State.countRand_waitX (s : State) : (s.countRand).waitX = s.waitX := rfl
@[simp] theorem State.countRand_randIdx (s : State) : (s.countRand).randIdx = s.randIdx + 1 := rfl
@[simp] theorem State.countRand_font (s : State) : (s.countRand).font = s.font := rfl

/-! ### advance -/

@[simp] theorem State.advance_v (s : State) : (s.advance).v = s.v := rfl
@[simp] theorem State.advance_i (s : State) : (s.advance).i = s.i := rfl
@[simp] theorem State.advance_pc (s : State) : (s.advance).pc = s.pc + 2#16 := rfl
@[simp] theorem State.advance_sp (s : State) : (s.advance).sp = s.sp := rfl
@[simp] theorem State.advance_stack (s : State) : (s.advance).stack = s.stack := rfl
@[simp] theorem State.advance_dt (s : State) : (s.advance).dt = s.dt := rfl
@[simp] theorem State.advance_st (s : State) : (s.advance).st = s.st := rfl
@[simp] theorem State.advance_mem (s : State) : (s.advance).mem = s.mem := rfl
@[simp] theorem State.advance_disp (s : State) : (s.advance).disp = s.disp := rfl
@[simp] theorem State.advance_keys (s : State) : (s.advance).keys = s.keys := rfl
@[simp] theorem State.advance_wait (s : State) : (s.advance).wait = s.wait := rfl
@[simp] theorem State.advance_waitX (s : State) : (s.advance).waitX = s.waitX := rfl
@[simp] theorem State.advance_randIdx (s : State) : (s.advance).randIdx = s.randIdx := rfl
@[simp] theorem State.advance_font (s : State) : (s.advance).font = s.font := rfl

/-! ### setKey -/

@[simp] theorem State.setKey_v (s : State) (k : Nibble) (p : Bool) : (s.setKey k p).v = s.v := rfl
@[simp] theorem State.setKey_i (s : State) (k : Nibble) (p : Bool) : (s.setKey k p).i = s.i := rfl
@[simp] theorem State.setKey_pc (s : State) (k : Nibble) (p : Bool) : (s.setKey k p).pc = s.pc := rfl
@[simp] theorem State.setKey_sp (s : State) (k : Nibble) (p : Bool) : (s.setKey k p).sp = s.sp := rfl
@[simp] theorem State.setKey_stack (s : State) (k : Nibble) (p : Bool) : (s.setKey k p).stack = s.stack := rfl
@[simp] theorem State.setKey_dt (s : State) (k : Nibble) (p : Bool) : (s.setKey k p).dt = s.dt := rfl
@[simp] theorem State.setKey_st (s : State) (k : Nibble) (p : Bool) : (s.setKey k p).st = s.st := rfl
@[simp] theorem State.setKey_mem (s : State) (k : Nibble) (p : Bool) : (s.setKey k p).mem = s.mem := rfl
@[simp] theorem State.setKey_disp (s : State) (k : Nibble) (p : Bool) : (s.setKey k p).disp = s.disp := rfl
@[simp] theorem State.setKey_keys (s : State) (k : Nibble) (p : Bool) : (s.setKey k p).keys = s.keys.set k.toNat p k.isLt := rfl
@[simp] theorem State.setKey_wait (s : State) (k : Nibble) (p : Bool) : (s.setKey k p).wait = s.wait := rfl
@[simp] theorem State.setKey_waitX (s : State) (k : Nibble) (p : Bool) : (s.setKey k p).waitX = s.waitX := rfl
@[simp] theorem State.setKey_randIdx (s : State) (k : Nibble) (p : Bool) : (s.setKey k p).randIdx = s.randIdx := rfl
@[simp] theorem State.setKey_font (s : State) (k : Nibble) (p : Bool) : (s.setKey k p).font = s.font := rfl

/-! ### writeMem -/

@[simp] theorem State.writeMem_v (s : State) (a : Nat) (bs : List Byte) : (s.writeMem a bs).v = s.v := rfl
@[simp] theorem State.writeMem_i (s : State) (a : Nat) (bs : List Byte) : (s.writeMem a bs).i = s.i := rfl
@[simp] theorem State.writeMem_pc (s : State) (a : Nat) (bs : List Byte) : (s.writeMem a bs).pc = s.pc := rfl
@[simp] theorem State.writeMem_sp (s : State) (a : Nat) (bs : List Byte) : (s.writeMem a bs).sp = s.sp := rfl
@[simp] theorem State.writeMem_stack (s : State) (a : Nat) (bs : List Byte) : (s.writeMem a bs).stack = s.stack := rfl
@[simp] theorem State.writeMem_dt (s : State) (a : Nat) (bs : List Byte) : (s.writeMem a bs).dt = s.dt := rfl
@[simp] theorem State.writeMem_st (s : State) (a : Nat) (bs : List Byte) : (s.writeMem a bs).st = s.st := rfl
@[simp] theorem State.writeMem_mem (s : State) (a : Nat) (bs : List Byte) : (s.writeMem a bs).mem = s.mem.writeBytes s.font a bs := rfl
@[simp] theorem State.writeMem_disp (s : State) (a : Nat) (bs : List Byte) : (s.writeMem a bs).disp = s.disp := rfl
@[simp] theorem State.writeMem_keys (s : State) (a : Nat) (bs : List Byte) : (s.writeMem a bs).keys = s.keys := rfl
@[simp] theorem State.writeMem_wait (s : State) (a : Nat) (bs : List Byte) : (s.writeMem a bs).wait = s.wait := rfl
@[simp] theorem State.writeMem_waitX (s : State) (a : Nat) (bs : List Byte) : (s.writeMem a bs).waitX = s.waitX := rfl
@[simp] theorem State.writeMem_randIdx (s : State) (a : Nat) (bs : List Byte) : (s.writeMem a bs).randIdx = s.randIdx := rfl
@[simp] theorem State.writeMem_font (s : State) (a : Nat) (bs : List Byte) : (s.writeMem a bs).font = s.font := rfl

/-! ### loadRegsUpTo -/

@[simp] theorem State.loadRegsUpTo_v (s : State) (x : Nibble) : (s.loadRegsUpTo x).v = Vector.ofFn fun k : Fin 16 => if k.val ≤ x.toNat then s.read (s.base + k.val) else s.v[k] := rfl
@[simp] theorem State.loadRegsUpTo_i (s : State) (x : Nibble) : (s.loadRegsUpTo x).i = s.i := rfl
@[simp] theorem State.loadRegsUpTo_pc (s : State) (x : Nibble) : (s.loadRegsUpTo x).pc = s.pc := rfl
@[simp] theorem State.loadRegsUpTo_sp (s : State) (x : Nibble) : (s.loadRegsUpTo x).sp = s.sp := rfl
@[simp] theorem State.loadRegsUpTo_stack (s : State) (x : Nibble) : (s.loadRegsUpTo x).stack = s.stack := rfl
@[simp] theorem State.loadRegsUpTo_dt (s : State) (x : Nibble) : (s.loadRegsUpTo x).dt = s.dt := rfl
@[simp] theorem State.loadRegsUpTo_st (s : State) (x : Nibble) : (s.loadRegsUpTo x).st = s.st := rfl
@[simp] theorem State.loadRegsUpTo_mem (s : State) (x : Nibble) : (s.loadRegsUpTo x).mem = s.mem := rfl
@[simp] theorem State.loadRegsUpTo_disp (s : State) (x : Nibble) : (s.loadRegsUpTo x).disp = s.disp := rfl
@[simp] theorem State.loadRegsUpTo_keys (s : State) (x : Nibble) : (s.loadRegsUpTo x).keys = s.keys := rfl
@[simp] theorem State.loadRegsUpTo_wait (s : State) (x : Nibble) : (s.loadRegsUpTo x).wait = s.wait := rfl
@[simp] theorem State.loadRegsUpTo_waitX (s : State) (x : Nibble) : (s.loadRegsUpTo x).waitX = s.waitX := rfl
@[simp] theorem State.loadRegsUpTo_randIdx (s : State) (x : Nibble) : (s.loadRegsUpTo x).randIdx = s.randIdx := rfl
@[simp] theorem State.loadRegsUpTo_font (s : State) (x : Nibble) : (s.loadRegsUpTo x).font = s.font := rfl

/-! ### skipIf -/

@[simp] theorem State.skipIf_v (s : State) (c : Bool) : (s.skipIf c).v = s.v := by cases c <;> rfl
@[simp] theorem State.skipIf_i (s : State) (c : Bool) : (s.skipIf c).i = s.i := by cases c <;> rfl
@[simp] theorem State.skipIf_pc (s : State) (c : Bool) :
    (s.skipIf c).pc = if c then s.pc + 2#16 else s.pc := by cases c <;> rfl
@[simp] theorem State.skipIf_sp (s : State) (c : Bool) : (s.skipIf c).sp = s.sp := by cases c <;> rfl
@[simp] theorem State.skipIf_stack (s : State) (c : Bool) : (s.skipIf c).stack = s.stack := by cases c <;> rfl
@[simp] theorem State.skipIf_dt (s : State) (c : Bool) : (s.skipIf c).dt = s.dt := by cases c <;> rfl
@[simp] theorem State.skipIf_st (s : State) (c : Bool) : (s.skipIf c).st = s.st := by cases c <;> rfl
@[simp] theorem State.skipIf_mem (s : State) (c : Bool) : (s.skipIf c).mem = s.mem := by cases c <;> rfl
@[simp] theorem State.skipIf_disp (s : State) (c : Bool) : (s.skipIf c).disp = s.disp := by cases c <;> rfl
@[simp] theorem State.skipIf_keys (s : State) (c : Bool) : (s.skipIf c).keys = s.keys := by cases c <;> rfl
@[simp] theorem State.skipIf_wait (s : State) (c : Bool) : (s.skipIf c).wait = s.wait := by cases c <;> rfl
@[simp] theorem State.skipIf_waitX (s : State) (c : Bool) : (s.skipIf c).waitX = s.waitX := by cases c <;> rfl
@[simp] theorem State.skipIf_randIdx (s : State) (c : Bool) : (s.skipIf c).randIdx = s.randIdx := by cases c <;> rfl
@[simp] theorem State.skipIf_font (s : State) (c : Bool) : (s.skipIf c).font = s.font := by cases c <;> rfl

/-! ### Host events -/

@[simp] theorem resetEvent_randIdx (s : State) : (resetEvent s).randIdx = s.randIdx := rfl
@[simp] theorem resetEvent_font (s : State) : (resetEvent s).font = s.font := rfl
@[simp] theorem resetEvent_v (s : State) : (resetEvent s).v = State.reset.v := rfl
@[simp] theorem resetEvent_i (s : State) : (resetEvent s).i = State.reset.i := rfl
@[simp] theorem resetEvent_pc (s : State) : (resetEvent s).pc = State.reset.pc := rfl
@[simp] theorem resetEvent_sp (s : State) : (resetEvent s).sp = State.reset.sp := rfl
@[simp] theorem resetEvent_stack (s : State) : (resetEvent s).stack = State.reset.stack := rfl
@[simp] theorem resetEvent_dt (s : State) : (resetEvent s).dt = State.reset.dt := rfl
@[simp] theorem resetEvent_st (s : State) : (resetEvent s).st = State.reset.st := rfl
@[simp] theorem resetEvent_mem (s : State) : (resetEvent s).mem = State.reset.mem := rfl
@[simp] theorem resetEvent_disp (s : State) : (resetEvent s).disp = State.reset.disp := rfl
@[simp] theorem resetEvent_keys (s : State) : (resetEvent s).keys = State.reset.keys := rfl
@[simp] theorem resetEvent_wait (s : State) : (resetEvent s).wait = State.reset.wait := rfl
@[simp] theorem resetEvent_waitX (s : State) : (resetEvent s).waitX = State.reset.waitX := rfl

@[simp] theorem tickTimers_v (s : State) : (tickTimers s).v = s.v := rfl
@[simp] theorem tickTimers_i (s : State) : (tickTimers s).i = s.i := rfl
@[simp] theorem tickTimers_pc (s : State) : (tickTimers s).pc = s.pc := rfl
@[simp] theorem tickTimers_sp (s : State) : (tickTimers s).sp = s.sp := rfl
@[simp] theorem tickTimers_stack (s : State) : (tickTimers s).stack = s.stack := rfl
@[simp] theorem tickTimers_dt (s : State) : (tickTimers s).dt = tickDown s.dt := rfl
@[simp] theorem tickTimers_st (s : State) : (tickTimers s).st = tickDown s.st := rfl
@[simp] theorem tickTimers_mem (s : State) : (tickTimers s).mem = s.mem := rfl
@[simp] theorem tickTimers_disp (s : State) : (tickTimers s).disp = s.disp := rfl
@[simp] theorem tickTimers_keys (s : State) : (tickTimers s).keys = s.keys := rfl
@[simp] theorem tickTimers_wait (s : State) : (tickTimers s).wait = s.wait := rfl
@[simp] theorem tickTimers_waitX (s : State) : (tickTimers s).waitX = s.waitX := rfl
@[simp] theorem tickTimers_randIdx (s : State) : (tickTimers s).randIdx = s.randIdx := rfl
@[simp] theorem tickTimers_font (s : State) : (tickTimers s).font = s.font := rfl

/-! ### Registers read after an update -/

/-- A register read after a register write (rule R10: no aliases). -/
theorem State.getV_setV (s : State) (x y : Nibble) (b : Byte) :
    (s.setV x b).getV y = if y = x then b else s.getV y := by
  unfold State.getV State.setV
  simp only [Vector.getElem_set]
  by_cases h : x.toNat = y.toNat
  · simp [BitVec.eq_of_toNat_eq h]
  · have : ¬ y = x := fun e => h (by rw [e])
    simp [h, this]

@[simp] theorem State.getV_setV_self (s : State) (x : Nibble) (b : Byte) : (s.setV x b).getV x = b := by
  simp [State.getV_setV]

/-- Two states with the same registers read the same. -/
theorem State.getV_congr (s t : State) (h : s.v = t.v) (x : Nibble) : s.getV x = t.getV x := by
  simp [State.getV, h]

@[simp] theorem State.setPc_getV (s : State) (a : Word) (k' : Nibble) : (s.setPc a).getV k' = s.getV k' := rfl
@[simp] theorem State.setI_getV (s : State) (a : Word) (k' : Nibble) : (s.setI a).getV k' = s.getV k' := rfl
@[simp] theorem State.setDt_getV (s : State) (b : Byte) (k' : Nibble) : (s.setDt b).getV k' = s.getV k' := rfl
@[simp] theorem State.setSt_getV (s : State) (b : Byte) (k' : Nibble) : (s.setSt b).getV k' = s.getV k' := rfl
@[simp] theorem State.setMem_getV (s : State) (m : Memory) (k' : Nibble) : (s.setMem m).getV k' = s.getV k' := rfl
@[simp] theorem State.setDisp_getV (s : State) (d : Display) (k' : Nibble) : (s.setDisp d).getV k' = s.getV k' := rfl
@[simp] theorem State.startWait_getV (s : State) (x : Nibble) (k' : Nibble) : (s.startWait x).getV k' = s.getV k' := rfl
@[simp] theorem State.endWait_getV (s : State) (k' : Nibble) : (s.endWait).getV k' = s.getV k' := rfl
@[simp] theorem State.countRand_getV (s : State) (k' : Nibble) : (s.countRand).getV k' = s.getV k' := rfl
@[simp] theorem State.advance_getV (s : State) (k' : Nibble) : (s.advance).getV k' = s.getV k' := rfl
@[simp] theorem State.setKey_getV (s : State) (k : Nibble) (p : Bool) (k' : Nibble) : (s.setKey k p).getV k' = s.getV k' := rfl
@[simp] theorem State.skipIf_getV (s : State) (c : Bool) (k : Nibble) : (s.skipIf c).getV k = s.getV k := by cases c <;> rfl

@[simp] theorem State.writeMem_getV (s : State) (a : Nat) (bs : List Byte) (k' : Nibble) : (s.writeMem a bs).getV k' = s.getV k' := rfl

/-! ### Memory read after an update that leaves it -/

/-- Two states with the same memory and the same FONT_TABLE read the same. -/
theorem State.read_congr (s t : State) (h : s.mem = t.mem) (hf : s.font = t.font) (a : Nat) : s.read a = t.read a := by
  simp [State.read, h, hf]

/-- Two states that read the same have the same words. -/
theorem State.word_congr (s t : State) (h : ∀ a, s.read a = t.read a) (a : Nat) : s.word a = t.word a := by
  simp [State.word, h]

@[simp] theorem State.setV_read (s : State) (x : Nibble) (b : Byte) (a' : Nat) : (s.setV x b).read a' = s.read a' := rfl
@[simp] theorem State.setPc_read (s : State) (a : Word) (a' : Nat) : (s.setPc a).read a' = s.read a' := rfl
@[simp] theorem State.setI_read (s : State) (a : Word) (a' : Nat) : (s.setI a).read a' = s.read a' := rfl
@[simp] theorem State.setDt_read (s : State) (b : Byte) (a' : Nat) : (s.setDt b).read a' = s.read a' := rfl
@[simp] theorem State.setSt_read (s : State) (b : Byte) (a' : Nat) : (s.setSt b).read a' = s.read a' := rfl
@[simp] theorem State.setDisp_read (s : State) (d : Display) (a' : Nat) : (s.setDisp d).read a' = s.read a' := rfl
@[simp] theorem State.startWait_read (s : State) (x : Nibble) (a' : Nat) : (s.startWait x).read a' = s.read a' := rfl
@[simp] theorem State.endWait_read (s : State) (a' : Nat) : (s.endWait).read a' = s.read a' := rfl
@[simp] theorem State.countRand_read (s : State) (a' : Nat) : (s.countRand).read a' = s.read a' := rfl
@[simp] theorem State.advance_read (s : State) (a' : Nat) : (s.advance).read a' = s.read a' := rfl
@[simp] theorem State.setKey_read (s : State) (k : Nibble) (p : Bool) (a' : Nat) : (s.setKey k p).read a' = s.read a' := rfl
@[simp] theorem State.skipIf_read (s : State) (c : Bool) (k : Nat) : (s.skipIf c).read k = s.read k := by cases c <;> rfl
@[simp] theorem State.loadRegsUpTo_read (s : State) (x : Nibble) (a' : Nat) : (s.loadRegsUpTo x).read a' = s.read a' := rfl
@[simp] theorem tickTimers_read (s : State) (a' : Nat) : (tickTimers s).read a' = s.read a' := rfl

end Sys2Proof.Machine
end

