-- ==== Sys2Proof/Laws/Ops.lean ====
section
/-! SUPPORT. Everything each shared operation can do, said once: the pre-checks, the call stack, stores and loads, the flag orders, the least pressed key, and the fetch. -/

namespace Sys2Proof.Machine

/-! ### Pre-checks (rules R37, R38) -/

/-- The bounds pre-check passes exactly when the range is empty or ends inside memory. -/
theorem State.checkAccess_ok_iff (s : State) (len : Nat) :
    s.checkAccess len = .ok () ↔ len = 0 ∨ s.i.toNat + len ≤ 0x1000 := by
  unfold State.checkAccess State.base
  split
  · next h => simp only [reduceCtorEq, false_iff]; omega
  · next h => simp only [true_iff]; omega

/-- It fails only with OutOfBoundsAccess, at the lowest address out of range. -/
theorem State.checkAccess_error_iff (s : State) (len : Nat) (f : Fault) :
    s.checkAccess len = .error f ↔
      f = .outOfBoundsAccess s.lowestOutOfRange ∧ 0 < len ∧ 0x1000 < s.i.toNat + len := by
  unfold State.checkAccess State.base
  split
  · next h => simp only [Except.error.injEq]; exact ⟨fun e => ⟨e.symm, h⟩, fun e => e.1.symm⟩
  · next h => simp only [reduceCtorEq, false_iff]; exact fun e => h e.2

/-- The pre-checks of a store pass exactly when the range is empty, or ends inside memory and starts above the font. -/
theorem State.checkStore_ok_iff (s : State) (len : Nat) :
    s.checkStore len = .ok () ↔ len = 0 ∨ (s.i.toNat + len ≤ 0x1000 ∧ 0x04F < s.i.toNat) := by
  unfold State.checkStore
  split
  · next f h =>
    have := (s.checkAccess_error_iff len f).1 h
    simp only [reduceCtorEq, false_iff]; omega
  · next u h =>
    have := (s.checkAccess_ok_iff len).1 h
    unfold State.checkFont State.base
    split
    · next h => simp only [reduceCtorEq, false_iff]; omega
    · next h => simp only [true_iff]; omega

/-- They fail with OutOfBoundsAccess first, else with FontRegionWrite at `i`. -/
theorem State.checkStore_error_iff (s : State) (len : Nat) (f : Fault) :
    s.checkStore len = .error f ↔ 0 < len ∧
      ((f = .outOfBoundsAccess s.lowestOutOfRange ∧ 0x1000 < s.i.toNat + len) ∨
       (f = .fontRegionWrite s.i ∧ s.i.toNat + len ≤ 0x1000 ∧ s.i.toNat ≤ 0x04F)) := by
  unfold State.checkStore
  split
  · next g h =>
    have hg := (s.checkAccess_error_iff len g).1 h
    simp only [Except.error.injEq]
    constructor
    · rintro rfl; exact ⟨hg.2.1, .inl ⟨hg.1, hg.2.2⟩⟩
    · rintro ⟨_, ⟨rfl, _⟩ | ⟨_, h2, _⟩⟩
      · exact hg.1
      · exact absurd hg.2.2 (by omega)
  · next u h =>
    have hu := (s.checkAccess_ok_iff len).1 h
    unfold State.checkFont State.base
    split
    · next h2 =>
      simp only [Except.error.injEq]
      constructor
      · rintro rfl; exact ⟨h2.1, .inr ⟨rfl, by omega, h2.2⟩⟩
      · rintro ⟨_, ⟨_, h3⟩ | ⟨rfl, _⟩⟩
        · omega
        · rfl
    · next h2 =>
      simp only [reduceCtorEq, false_iff]
      rintro ⟨_, ⟨_, h3⟩ | ⟨_, h3, h4⟩⟩ <;> omega

/-- A store that passes its pre-checks writes exactly its bytes. -/
theorem State.storeBytes_ok (s : State) (bs : List Byte) (hb : s.i.toNat + bs.length ≤ 0x1000)
    (hf : 0x04F < s.i.toNat) : s.storeBytes bs = .ok (s.writeMem s.i.toNat bs) := by
  unfold State.storeBytes
  rw [(s.checkStore_ok_iff bs.length).2 (.inr ⟨hb, hf⟩)]
  rfl

/-- What a store that answers a state has done. -/
theorem State.storeBytes_ok_inv (s t : State) (bs : List Byte) (h : s.storeBytes bs = .ok t) :
    t = s.writeMem s.i.toNat bs ∧
      (bs.length = 0 ∨ (s.i.toNat + bs.length ≤ 0x1000 ∧ 0x04F < s.i.toNat)) := by
  unfold State.storeBytes at h
  split at h
  · cases h
  · next u hu =>
    injection h with h
    exact ⟨h.symm, (s.checkStore_ok_iff bs.length).1 hu⟩

/-- A store faults exactly as its pre-checks do. -/
theorem State.storeBytes_error_iff (s : State) (bs : List Byte) (f : Fault) :
    s.storeBytes bs = .error f ↔ s.checkStore bs.length = .error f := by
  unfold State.storeBytes
  split <;> simp_all

/-! ### Main memory (rule R39) -/

/-- A read after a write of several bytes: byte `k` at `a + k`, every other byte as before. -/
theorem State.read_writeMem (s : State) (a b : Nat) (bs : List Byte) :
    (s.writeMem a bs).read b = if h : a ≤ b ∧ b < a + bs.length then bs[b - a]'(by omega) else s.read b :=
  Memory.read_writeBytes s.font s.mem a b bs

/-! ### The call stack (rules R14, R19) -/

theorem State.push_ok (s : State) (a : Word) (h : s.sp.val < 16) :
    s.push a = .ok { s with stack := s.stack.set s.sp.val a h, sp := ⟨s.sp.val + 1, by omega⟩ } := by
  simp [State.push, h]

theorem State.push_error_iff (s : State) (a : Word) (f : Fault) :
    s.push a = .error f ↔ f = .stackOverflow ∧ s.sp.val = 16 := by
  unfold State.push
  split
  · next h => simp only [reduceCtorEq, false_iff]; omega
  · next h =>
    have : s.sp.val = 16 := by omega
    simp only [Except.error.injEq, this, and_true]; exact eq_comm

theorem State.popPc_ok (s : State) (h : 0 < s.sp.val) :
    s.popPc = .ok { s with pc := s.stack[s.sp.val - 1]'(by omega), sp := ⟨s.sp.val - 1, by omega⟩ } := by
  simp [State.popPc, h]

theorem State.popPc_error_iff (s : State) (f : Fault) :
    s.popPc = .error f ↔ f = .stackUnderflow ∧ s.sp.val = 0 := by
  unfold State.popPc
  split
  · next h => simp only [reduceCtorEq, false_iff]; omega
  · next h =>
    have : s.sp.val = 0 := by omega
    simp only [Except.error.injEq, this, and_true]; exact eq_comm

/-! ### Blocks of registers (rules R124, R125) -/

@[simp] theorem State.regsUpTo_length (s : State) (x : Nibble) : (s.regsUpTo x).length = x.toNat + 1 := by
  have := x.isLt
  simp only [State.regsUpTo, List.length_take, Vector.length_toList]
  omega

theorem State.regsUpTo_getElem (s : State) (x k : Nibble) (h : k.toNat < (s.regsUpTo x).length) :
    (s.regsUpTo x)[k.toNat] = s.getV k := by
  simp [State.regsUpTo, State.getV]

theorem State.getV_loadRegsUpTo (s : State) (x k : Nibble) :
    (s.loadRegsUpTo x).getV k = if k.toNat ≤ x.toNat then s.read (s.i.toNat + k.toNat) else s.getV k := by
  simp [State.loadRegsUpTo, State.getV, State.base]

/-! ### Result and flag (rule R100) -/

/-- add, sub, subn: the flag remains when the destination is the flag register. -/
theorem State.getV_resultThenFlag (s : State) (x k : Nibble) (r : Byte) (c : Bool) :
    (s.resultThenFlag x r c).getV k =
      if k = 0xF#4 then flagByte c else if k = x then r else s.getV k := by
  simp [State.resultThenFlag, State.getV_setV, flagReg]

/-- shifts: the result remains when the destination is the flag register. -/
theorem State.getV_flagThenResult (s : State) (x k : Nibble) (r : Byte) (c : Bool) :
    (s.flagThenResult x r c).getV k =
      if k = x then r else if k = 0xF#4 then flagByte c else s.getV k := by
  simp [State.flagThenResult, State.getV_setV, flagReg]

/-- Both write registers only. -/
theorem State.resultThenFlag_frame (s : State) (x : Nibble) (r : Byte) (c : Bool) :
    s.resultThenFlag x r c = { s with v := (s.resultThenFlag x r c).v } := rfl

theorem State.flagThenResult_frame (s : State) (x : Nibble) (r : Byte) (c : Bool) :
    s.flagThenResult x r c = { s with v := (s.flagThenResult x r c).v } := rfl

/-! ### The keypad (rules R75, R143) -/

theorem mem_keyNumbers (k : Nibble) : k ∈ keyNumbers := by revert k; decide

theorem keyNumbers_sorted : keyNumbers.Pairwise (· < ·) := by decide

/-- The least pressed key is pressed, and no smaller one is. -/
theorem State.leastKey_eq_some_iff (s : State) (k : Nibble) :
    s.leastKey = some k ↔ s.key k = true ∧ ∀ j, j < k → s.key j = false := by
  unfold State.leastKey
  rw [List.find?_eq_some_iff_append]
  constructor
  · rintro ⟨hk, as, bs, he, has⟩
    refine ⟨hk, fun j hj => ?_⟩
    have hmem := mem_keyNumbers j
    rw [he, List.mem_append, List.mem_cons] at hmem
    have hs := he ▸ keyNumbers_sorted
    rcases hmem with h | rfl | h
    · simpa using has j h
    · exact absurd hj (by simp)
    · have := (List.pairwise_cons.mp (List.pairwise_append.mp hs).2.1).1 j h
      bv_omega
  · rintro ⟨hk, hless⟩
    obtain ⟨as, bs, he⟩ := List.append_of_mem (mem_keyNumbers k)
    refine ⟨hk, as, bs, he, fun a ha => ?_⟩
    have hs := he ▸ keyNumbers_sorted
    have := (List.pairwise_append.mp hs).2.2 a ha k (by simp)
    simp [hless a this]

/-- There is no least pressed key exactly when no key is pressed. -/
theorem State.leastKey_eq_none_iff (s : State) : s.leastKey = none ↔ ∀ k, s.key k = false := by
  unfold State.leastKey
  rw [List.find?_eq_none]
  exact ⟨fun h k => by simpa using h k (mem_keyNumbers k), fun h k _ => by simp [h k]⟩

/-! ### The fetch (rule R71) -/

theorem State.fetch_ok (s : State) (h : s.pc.toNat ≤ 0xFFE) : s.fetch = .ok (s.word s.pc.toNat) := by
  simp [State.fetch, h]

theorem State.fetch_error (s : State) (h : 0xFFE < s.pc.toNat) : s.fetch = .error (.outOfBoundsFetch s.pc) := by
  simp [State.fetch, Nat.not_le.mpr h]

end Sys2Proof.Machine
end

