-- ==== Sys2Proof/Laws/Display.lean ====
section
/-! SUPPORT. The sprite engine in closed form: a draw toggles exactly the pixels its sprite sets, and its collision flag says whether one of them was lit (rule R131). -/

namespace Sys2Proof.Machine

/-- A pixel of the display: row and column. -/
abbrev Pixel := Fin 32 × Fin 64

theorem Display.get_flip (d : Display) (y y' : Fin 32) (x x' : Fin 64) :
    Display.get (Display.flip d y x) y' x' = (Display.get d y' x' ^^ decide ((y', x') = (y, x))) := by
  unfold Display.get Display.flip
  by_cases hy : y' = y
  · subst hy
    by_cases hx : x' = x
    · subst hx; simp [Display.get]
    · have : ¬ x.val = x'.val := fun e => hx (Fin.ext e.symm)
      simp [this, hx]
  · have : ¬ y.val = y'.val := fun e => hy (Fin.ext e.symm)
    simp [this, hy]

theorem clearDisplay_get (y : Fin 32) (x : Fin 64) : Display.get clearDisplay y x = false := by
  simp [Display.get, clearDisplay]

/-- Toggling a list of distinct pixels. -/
theorem foldl_xorPixel (ps : List Pixel) (h : ps.Nodup) (cv : Canvas) :
    (∀ y x, Display.get (ps.foldl (fun acc p => xorPixel p.1 p.2 acc) cv).1 y x =
      (Display.get cv.1 y x ^^ decide ((y, x) ∈ ps))) ∧
    (ps.foldl (fun acc p => xorPixel p.1 p.2 acc) cv).2 =
      (cv.2 || ps.any fun p => Display.get cv.1 p.1 p.2) := by
  induction ps generalizing cv with
  | nil => simp
  | cons p ps ih =>
    obtain ⟨hp, hps⟩ := List.nodup_cons.mp h
    obtain ⟨ihg, ihc⟩ := ih hps (xorPixel p.1 p.2 cv)
    refine ⟨fun y x => ?_, ?_⟩
    · rw [List.foldl_cons, ihg]
      simp only [xorPixel, Display.get_flip, List.mem_cons]
      by_cases he : (y, x) = (p.1, p.2)
      · have : (y, x) = p := he
        subst this
        simp [hp]
      · have : ¬ (y, x) = p := he
        simp [this]
    · rw [List.foldl_cons, ihc]
      have hrest : (ps.any fun q => Display.get (xorPixel p.1 p.2 cv).1 q.1 q.2) =
          ps.any fun q => Display.get cv.1 q.1 q.2 := by
        rw [Bool.eq_iff_iff, List.any_eq_true, List.any_eq_true]
        refine exists_congr fun q => and_congr_right fun hq => ?_
        have : ¬ q = p := fun e => hp (e ▸ hq)
        simp [xorPixel, Display.get_flip, this]
      rw [hrest]
      simp [xorPixel, Bool.or_assoc]

/-- The pixels of a sprite row. -/
def rowPixels (b : Byte) (x0 : Nat) (y : Fin 32) : List Pixel :=
  (List.range 8).filterMap fun c => if b.getLsbD (7 - c) then some (y, spriteColumn x0 c) else none

theorem drawRow_eq (b : Byte) (x0 : Nat) (y : Fin 32) (cv : Canvas) :
    drawRow b x0 y cv = (rowPixels b x0 y).foldl (fun acc p => xorPixel p.1 p.2 acc) cv := by
  unfold drawRow rowPixels
  rw [List.foldl_filterMap]
  congr 1
  funext acc c
  split <;> rfl

theorem mem_rowPixels (b : Byte) (x0 : Nat) (y : Fin 32) (p : Pixel) :
    p ∈ rowPixels b x0 y ↔ p.1 = y ∧ ∃ c, c < 8 ∧ (x0 + c) % 64 = p.2.val ∧ b.getLsbD (7 - c) = true := by
  simp only [rowPixels, List.mem_filterMap, List.mem_range, Option.ite_none_right_eq_some, Option.some.injEq]
  constructor
  · rintro ⟨c, hc, hb, rfl⟩; exact ⟨rfl, c, hc, rfl, hb⟩
  · rintro ⟨h1, c, hc, hx, hb⟩
    exact ⟨c, hc, hb, Prod.ext h1.symm (Fin.ext hx)⟩

theorem rowPixels_nodup (b : Byte) (x0 : Nat) (y : Fin 32) : (rowPixels b x0 y).Nodup := by
  unfold rowPixels
  refine List.pairwise_filterMap.mpr (List.nodup_range.imp_of_mem fun {c c'} hc hc' hne p hp p' hp' e => ?_)
  simp only [Option.ite_none_right_eq_some, Option.some.injEq] at hp hp'
  rw [List.mem_range] at hc hc'
  have h : (x0 + c) % 64 = (x0 + c') % 64 :=
    congrArg Fin.val (congrArg Prod.snd (hp.2.trans (e.trans hp'.2.symm)))
  omega

/-- The pixels of a sprite: its rows but those past the bottom edge. -/
def spritePixels (rows : Nat → Byte) (x0 y0 n : Nat) : List Pixel :=
  (List.range n).flatMap fun r => if h : y0 + r < 32 then rowPixels (rows r) x0 ⟨y0 + r, h⟩ else []

theorem drawRows_eq (rows : Nat → Byte) (x0 y0 n : Nat) (cv : Canvas) :
    drawRows rows x0 y0 n cv = (spritePixels rows x0 y0 n).foldl (fun acc p => xorPixel p.1 p.2 acc) cv := by
  unfold drawRows spritePixels
  rw [List.foldl_flatMap]
  congr 1
  funext acc r
  split
  · exact drawRow_eq _ _ _ _
  · rfl

theorem mem_spritePixels (rows : Nat → Byte) (x0 y0 n : Nat) (p : Pixel) :
    p ∈ spritePixels rows x0 y0 n ↔
      ∃ r, r < n ∧ ∃ c, c < 8 ∧ y0 + r = p.1.val ∧ (x0 + c) % 64 = p.2.val ∧ (rows r).getLsbD (7 - c) = true := by
  simp only [spritePixels, List.mem_flatMap, List.mem_range]
  constructor
  · rintro ⟨r, hr, hm⟩
    split at hm
    · obtain ⟨h1, c, hc, hx, hb⟩ := (mem_rowPixels _ _ _ _).1 hm
      exact ⟨r, hr, c, hc, by rw [h1], hx, hb⟩
    · simp at hm
  · rintro ⟨r, hr, c, hc, hy, hx, hb⟩
    have h : y0 + r < 32 := by omega
    exact ⟨r, hr, by rw [dif_pos h]; exact (mem_rowPixels _ _ _ _).2 ⟨Fin.ext hy.symm, c, hc, hx, hb⟩⟩

theorem spritePixels_nodup (rows : Nat → Byte) (x0 y0 n : Nat) : (spritePixels rows x0 y0 n).Nodup := by
  unfold spritePixels
  rw [List.nodup_flatMap]
  refine ⟨fun r _ => ?_, ?_⟩
  · split
    · exact rowPixels_nodup _ _ _
    · exact List.nodup_nil
  · refine List.nodup_range.imp fun {r r'} hne => ?_
    intro p hp hp'
    dsimp only at hp hp'
    split at hp
    · split at hp'
      · have h1 := ((mem_rowPixels _ _ _ _).1 hp).1
        have h2 := ((mem_rowPixels _ _ _ _).1 hp').1
        have := congrArg Fin.val (h1.symm.trans h2)
        simp only at this
        omega
      · simp at hp'
    · simp at hp

/-- The pixels of a draw are those its sprite sets. -/
theorem mem_drawn_pixels (s : State) (x y n : Nibble) (py : Fin 32) (px : Fin 64) :
    (py, px) ∈ spritePixels s.spriteRow (s.drawX x) (s.drawY y) n.toNat ↔ Safety.SpriteSets s x y n py px :=
  mem_spritePixels _ _ _ _ _

/-- A pixel after a draw: toggled exactly where the sprite sets it. -/
theorem State.drawn_get (s : State) (x y n : Nibble) (py : Fin 32) (px : Fin 64) :
    Display.get (s.drawn x y n).1 py px =
      (Display.get s.disp py px ^^
        decide ((py, px) ∈ spritePixels s.spriteRow (s.drawX x) (s.drawY y) n.toNat)) := by
  unfold State.drawn
  rw [drawRows_eq]
  exact (foldl_xorPixel _ (spritePixels_nodup _ _ _ _) _).1 py px

/-- The collision flag of a draw: some lit pixel is one the sprite sets. -/
theorem State.drawn_collision (s : State) (x y n : Nibble) :
    (s.drawn x y n).2 = true ↔ ∃ py px, Display.get s.disp py px = true ∧ Safety.SpriteSets s x y n py px := by
  unfold State.drawn
  rw [drawRows_eq, (foldl_xorPixel _ (spritePixels_nodup _ _ _ _) _).2]
  simp only [Bool.false_or, List.any_eq_true]
  constructor
  · rintro ⟨⟨py, px⟩, hm, hl⟩; exact ⟨py, px, hl, (mem_drawn_pixels _ _ _ _ _ _).1 hm⟩
  · rintro ⟨py, px, hl, hm⟩; exact ⟨(py, px), (mem_drawn_pixels _ _ _ _ _ _).2 hm, hl⟩

end Sys2Proof.Machine
end

