-- ==== Sys2Proof/Laws/PerInstr.lean ====
section
/-! SUPPORT. Statements about every instruction, one lemma per constructor. Family OwnRow: an instruction's word matches its own row of the opcode map, `w & mask = match` (rules R54, R55). -/

namespace Sys2Proof.Laws.OwnRow

/-- The word of a well-formed instruction matches its row of the opcode map. -/
def Statement (i : Instr) : Prop := WellFormed i → encode i &&& (opcodeRow i).2 = (opcodeRow i).1

/-! ### Each shape of word under each mask of the map -/

theorem and_nibble_ones (a : Nibble) : a &&& 0xF#4 = a := BitVec.and_allOnes

theorem and_byte_ones (a : Byte) : a &&& 0xFF#8 = a := BitVec.and_allOnes

theorem mask_addr (a : Nibble) (nnn : Imm12) : ((a ++ nnn : Word) &&& 0xF000#16) = a ++ 0x000#12 := by
  have h : (a ++ nnn) &&& (0xF#4 ++ 0x000#12) = a ++ 0x000#12 := by
    rw [BitVec.and_append]; simp [and_nibble_ones]
  exact h

theorem mask_imm (a x : Nibble) (nn : Byte) : ((a ++ x ++ nn : Word) &&& 0xF000#16) = a ++ 0x0#4 ++ 0x00#8 := by
  have h : (a ++ x ++ nn) &&& (0xF#4 ++ 0x0#4 ++ 0x00#8) = a ++ 0x0#4 ++ 0x00#8 := by
    rw [BitVec.and_append, BitVec.and_append]; simp [and_nibble_ones]
  exact h

theorem mask_sel (a x : Nibble) (k : Byte) : ((a ++ x ++ k : Word) &&& 0xF0FF#16) = a ++ 0x0#4 ++ k := by
  have h : (a ++ x ++ k) &&& (0xF#4 ++ 0x0#4 ++ 0xFF#8) = a ++ 0x0#4 ++ k := by
    rw [BitVec.and_append, BitVec.and_append]; simp [and_nibble_ones, and_byte_ones]
  exact h

theorem mask_reg (a x y n : Nibble) : ((a ++ x ++ y ++ n : Word) &&& 0xF00F#16) = a ++ 0x0#4 ++ 0x0#4 ++ n := by
  have h : (a ++ x ++ y ++ n) &&& (0xF#4 ++ 0x0#4 ++ 0x0#4 ++ 0xF#4) = a ++ 0x0#4 ++ 0x0#4 ++ n := by
    rw [BitVec.and_append, BitVec.and_append, BitVec.and_append]; simp [and_nibble_ones]
  exact h

theorem mask_draw (a x y n : Nibble) :
    ((a ++ x ++ y ++ n : Word) &&& 0xF000#16) = a ++ 0x0#4 ++ 0x0#4 ++ 0x0#4 := by
  have h : (a ++ x ++ y ++ n) &&& (0xF#4 ++ 0x0#4 ++ 0x0#4 ++ 0x0#4) = a ++ 0x0#4 ++ 0x0#4 ++ 0x0#4 := by
    rw [BitVec.and_append, BitVec.and_append, BitVec.and_append]; simp [and_nibble_ones]
  exact h

/-! ### One lemma per constructor -/

theorem cls : Statement (.cls) := fun _ => rfl

theorem ret : Statement (.ret) := fun _ => rfl

theorem jp (nnn : Imm12) : Statement (.jp nnn) := fun _ => mask_addr _ _

theorem call (nnn : Imm12) : Statement (.call nnn) := fun _ => mask_addr _ _

theorem seImm (x : Nibble) (nn : Byte) : Statement (.seImm x nn) := fun _ => mask_imm _ _ _

theorem sneImm (x : Nibble) (nn : Byte) : Statement (.sneImm x nn) := fun _ => mask_imm _ _ _

theorem seReg (x y : Nibble) : Statement (.seReg x y) := fun _ => mask_reg _ _ _ _

theorem ldImm (x : Nibble) (nn : Byte) : Statement (.ldImm x nn) := fun _ => mask_imm _ _ _

theorem addImm (x : Nibble) (nn : Byte) : Statement (.addImm x nn) := fun _ => mask_imm _ _ _

theorem ldReg (x y : Nibble) : Statement (.ldReg x y) := fun _ => mask_reg _ _ _ _

theorem orReg (x y : Nibble) : Statement (.orReg x y) := fun _ => mask_reg _ _ _ _

theorem andReg (x y : Nibble) : Statement (.andReg x y) := fun _ => mask_reg _ _ _ _

theorem xorReg (x y : Nibble) : Statement (.xorReg x y) := fun _ => mask_reg _ _ _ _

theorem addReg (x y : Nibble) : Statement (.addReg x y) := fun _ => mask_reg _ _ _ _

theorem subReg (x y : Nibble) : Statement (.subReg x y) := fun _ => mask_reg _ _ _ _

theorem shr (x y : Nibble) : Statement (.shr x y) := fun _ => mask_reg _ _ _ _

theorem subnReg (x y : Nibble) : Statement (.subnReg x y) := fun _ => mask_reg _ _ _ _

theorem shl (x y : Nibble) : Statement (.shl x y) := fun _ => mask_reg _ _ _ _

theorem sneReg (x y : Nibble) : Statement (.sneReg x y) := fun _ => mask_reg _ _ _ _

theorem ldI (nnn : Imm12) : Statement (.ldI nnn) := fun _ => mask_addr _ _

theorem jpV0 (nnn : Imm12) : Statement (.jpV0 nnn) := fun _ => mask_addr _ _

theorem rnd (x : Nibble) (nn : Byte) : Statement (.rnd x nn) := fun _ => mask_imm _ _ _

theorem drw (x y n : Nibble) : Statement (.drw x y n) := fun _ => mask_draw _ _ _ _

theorem skp (x : Nibble) : Statement (.skp x) := fun _ => mask_sel _ _ _

theorem sknp (x : Nibble) : Statement (.sknp x) := fun _ => mask_sel _ _ _

theorem ldVxDt (x : Nibble) : Statement (.ldVxDt x) := fun _ => mask_sel _ _ _

theorem ldVxK (x : Nibble) : Statement (.ldVxK x) := fun _ => mask_sel _ _ _

theorem ldDtVx (x : Nibble) : Statement (.ldDtVx x) := fun _ => mask_sel _ _ _

theorem ldStVx (x : Nibble) : Statement (.ldStVx x) := fun _ => mask_sel _ _ _

theorem addI (x : Nibble) : Statement (.addI x) := fun _ => mask_sel _ _ _

theorem ldF (x : Nibble) : Statement (.ldF x) := fun _ => mask_sel _ _ _

theorem ldB (x : Nibble) : Statement (.ldB x) := fun _ => mask_sel _ _ _

theorem storeRegs (x : Nibble) : Statement (.storeRegs x) := fun _ => mask_sel _ _ _

theorem loadRegs (x : Nibble) : Statement (.loadRegs x) := fun _ => mask_sel _ _ _

theorem sys (nnn : Imm12) : Statement (.sys nnn) := fun _ => mask_addr _ _

end Sys2Proof.Laws.OwnRow
end

