-- ==== Sys2Proof/Laws/Step.lean ====
section
/-! SUPPORT. What a step can do, said once: each of its three ways, and the inversion of a step that answers a next state. -/

namespace Sys2Proof.Machine

theorem step_of_wait (s : State) (h : s.wait = true) : step s = pollKeyWait s := by simp [step, h]

theorem step_of_fetch_error (s : State) (h : s.wait = false) (hp : 0xFFE < s.pc.toNat) :
    step s = .fault (.outOfBoundsFetch s.pc) := by
  simp [step, h, s.fetch_error hp, raise]

theorem step_of_decode_error (s : State) (h : s.wait = false) (hp : s.pc.toNat ≤ 0xFFE) (e : DecodeError)
    (hd : decodeWord (s.word s.pc.toNat) = .error e) :
    step s = .fault (.unknownOpcode (s.word s.pc.toNat) s.pc) := by
  simp [step, h, s.fetch_ok hp, hd, raise]

theorem step_of_decode_ok (s : State) (h : s.wait = false) (hp : s.pc.toNat ≤ 0xFFE) (i : Instr)
    (hd : decodeWord (s.word s.pc.toNat) = .ok i) : step s = exec i s.advance := by
  simp [step, h, s.fetch_ok hp, hd]

/-- A step that answers a next state polled a key wait, or ran the instruction its `pc` addresses. -/
theorem step_next_cases (s t : State) (h : step s = .next t) :
    (s.wait = true ∧ pollKeyWait s = .next t) ∨
    (s.wait = false ∧ s.pc.toNat ≤ 0xFFE ∧
      ∃ i, decodeWord (s.word s.pc.toNat) = .ok i ∧ exec i s.advance = .next t) := by
  by_cases hw : s.wait = true
  · exact .inl ⟨hw, step_of_wait s hw ▸ h⟩
  · have hw : s.wait = false := by simpa using hw
    by_cases hp : s.pc.toNat ≤ 0xFFE
    · cases hd : decodeWord (s.word s.pc.toNat) with
      | error e => rw [step_of_decode_error s hw hp e hd] at h; cases h
      | ok i => exact .inr ⟨hw, hp, i, rfl, step_of_decode_ok s hw hp i hd ▸ h⟩
    · rw [step_of_fetch_error s hw (by omega)] at h; cases h

/-- A poll of a key wait answers a next state, always: the same state with no key pressed, else the retirement. -/
theorem pollKeyWait_cases (s : State) :
    (s.leastKey = none ∧ pollKeyWait s = .next s) ∨
    (∃ k, s.leastKey = some k ∧ pollKeyWait s = .next ((s.setV s.waitX (nibbleToByte k)).endWait).advance) := by
  unfold pollKeyWait
  cases h : s.leastKey with
  | none => exact .inl ⟨rfl, rfl⟩
  | some k => exact .inr ⟨k, rfl, rfl⟩

end Sys2Proof.Machine
end

