-- ==== Sys2Proof/Tests/Slice0.lean ====
section
/-! SUPPORT. Tests. Expected results are the vectors of 95_test_vectors.md (S1 to S10, V1 to V163) and words written out from rule R55; after them, for each obligation with hypotheses, states that meet them. -/

namespace Sys2Proof.Tests

open Sys2Proof Sys2Proof.Machine Sys2Proof.Safety

/-! ### Builders -/

/-- The reset state with some registers written. -/
def withV (rs : List (Nibble × Byte)) : State := rs.foldl (fun s r => s.setV r.1 r.2) State.reset

/-- A state with bytes in memory. -/
def withMem (a : Nat) (bs : List Byte) (s : State) : State := s.writeMem a bs

/-- `v[k] = A0 + k` (vectors V109 and V117). -/
def rising : State :=
  withV [(0x0#4, 0xA0#8), (0x1#4, 0xA1#8), (0x2#4, 0xA2#8), (0x3#4, 0xA3#8), (0xE#4, 0xAE#8), (0xF#4, 0xAF#8)]

/-- The reset state waiting for a key in V2 (scenario S9). -/
def waiting : State := withMem 0x200 [0xF2#8, 0x0A#8] (State.reset.startWait 0x2#4)

/-- The next state of a step, if it answers one. -/
def nextOf (s : State) : Option State :=
  match step s with
  | .next t => some t
  | _ => none

/-- The next state of one step on a word placed at `pc`. -/
def run (w : Nat) (s : State) : Option State := nextOf (s.withFetchWord 16 w)

/-- The fault of one step on a word placed at `pc`. -/
def faultOf (w : Nat) (s : State) : Option Fault := stepResult (s.withFetchWord 16 w)

/-- `pc` after one step on a word placed at `pc`. -/
def pcOf (w : Nat) (s : State) : Option Word := (run w s).map State.pc

/-- A register after one step on a word placed at `pc`. -/
def regOf (w : Nat) (k : Nibble) (s : State) : Option Byte := (run w s).map (·.getV k)

/-- A register and the flag register after one step. -/
def regFlagOf (w : Nat) (k : Nibble) (s : State) : Option (Byte × Byte) :=
  (run w s).map fun t => (t.getV k, t.getV 0xF#4)

/-- The lit columns of a row, rising. -/
def litColumns (d : Display) (y : Fin 32) : List (Fin 64) := (List.finRange 64).filter (Display.get d y)

/-- The lit columns of a row after one step. -/
def rowOf (w : Nat) (y : Fin 32) (s : State) : Option (List (Fin 64)) := (run w s).map fun t => litColumns t.disp y

/-! ### Well-formedness: each check refuses a term -/

theorem test_wf_refuses_sys_of_cls : ¬ WellFormed (.sys 0x0E0#12) := by decide
theorem test_wf_refuses_sys_of_ret : ¬ WellFormed (.sys 0x0EE#12) := by decide
theorem test_wf_admits_sys : WellFormed (.sys 0x0E1#12) := by decide

/-! ### Decoding: a word of each row of rule R55 -/

theorem test_decode_cls : decodeWord 0x00E0#16 = .ok .cls := by decide
theorem test_decode_ret : decodeWord 0x00EE#16 = .ok .ret := by decide
theorem test_decode_jp : decodeWord 0x1ABC#16 = .ok (.jp 0xABC#12) := by decide
theorem test_decode_call : decodeWord 0x2ABC#16 = .ok (.call 0xABC#12) := by decide
theorem test_decode_seImm : decodeWord 0x3142#16 = .ok (.seImm 0x1#4 0x42#8) := by decide
theorem test_decode_sneImm : decodeWord 0x4142#16 = .ok (.sneImm 0x1#4 0x42#8) := by decide
theorem test_decode_seReg : decodeWord 0x5120#16 = .ok (.seReg 0x1#4 0x2#4) := by decide
theorem test_decode_ldImm : decodeWord 0x6005#16 = .ok (.ldImm 0x0#4 0x05#8) := by decide
theorem test_decode_addImm : decodeWord 0x71FE#16 = .ok (.addImm 0x1#4 0xFE#8) := by decide
theorem test_decode_ldReg : decodeWord 0x8120#16 = .ok (.ldReg 0x1#4 0x2#4) := by decide
theorem test_decode_orReg : decodeWord 0x8121#16 = .ok (.orReg 0x1#4 0x2#4) := by decide
theorem test_decode_andReg : decodeWord 0x8122#16 = .ok (.andReg 0x1#4 0x2#4) := by decide
theorem test_decode_xorReg : decodeWord 0x8123#16 = .ok (.xorReg 0x1#4 0x2#4) := by decide
theorem test_decode_addReg : decodeWord 0x8AB4#16 = .ok (.addReg 0xA#4 0xB#4) := by decide
theorem test_decode_subReg : decodeWord 0x8125#16 = .ok (.subReg 0x1#4 0x2#4) := by decide
theorem test_decode_shr : decodeWord 0x8126#16 = .ok (.shr 0x1#4 0x2#4) := by decide
theorem test_decode_subnReg : decodeWord 0x8127#16 = .ok (.subnReg 0x1#4 0x2#4) := by decide
theorem test_decode_shl : decodeWord 0x812E#16 = .ok (.shl 0x1#4 0x2#4) := by decide
theorem test_decode_sneReg : decodeWord 0x9120#16 = .ok (.sneReg 0x1#4 0x2#4) := by decide
theorem test_decode_ldI : decodeWord 0xA123#16 = .ok (.ldI 0x123#12) := by decide
theorem test_decode_jpV0 : decodeWord 0xB300#16 = .ok (.jpV0 0x300#12) := by decide
theorem test_decode_rnd : decodeWord 0xC10F#16 = .ok (.rnd 0x1#4 0x0F#8) := by decide
theorem test_decode_drw : decodeWord 0xD125#16 = .ok (.drw 0x1#4 0x2#4 0x5#4) := by decide
theorem test_decode_skp : decodeWord 0xE19E#16 = .ok (.skp 0x1#4) := by decide
theorem test_decode_sknp : decodeWord 0xE1A1#16 = .ok (.sknp 0x1#4) := by decide
theorem test_decode_ldVxDt : decodeWord 0xF107#16 = .ok (.ldVxDt 0x1#4) := by decide
theorem test_decode_ldVxK : decodeWord 0xF20A#16 = .ok (.ldVxK 0x2#4) := by decide
theorem test_decode_ldDtVx : decodeWord 0xF115#16 = .ok (.ldDtVx 0x1#4) := by decide
theorem test_decode_ldStVx : decodeWord 0xF118#16 = .ok (.ldStVx 0x1#4) := by decide
theorem test_decode_addI : decodeWord 0xF11E#16 = .ok (.addI 0x1#4) := by decide
theorem test_decode_ldF : decodeWord 0xF229#16 = .ok (.ldF 0x2#4) := by decide
theorem test_decode_ldB : decodeWord 0xF033#16 = .ok (.ldB 0x0#4) := by decide
theorem test_decode_storeRegs : decodeWord 0xF355#16 = .ok (.storeRegs 0x3#4) := by decide
theorem test_decode_loadRegs : decodeWord 0xF365#16 = .ok (.loadRegs 0x3#4) := by decide
theorem test_decode_sys : decodeWord 0x0123#16 = .ok (.sys 0x123#12) := by decide

/-- Vectors V9 to V13: words of no row are rejected by name. -/
theorem test_decode_rejects :
    ([0x5011#16, 0x9011#16, 0x8018#16, 0x8019#16, 0x801F#16, 0xE09F#16, 0xF000#16, 0xF066#16] : List Word).all
      (fun w => decide (decodeWord w = .error (.unknownOpcode w))) = true := by decide

theorem test_decodeBytes_leaves_the_rest :
    decodeBytes [0xD0#8, 0x05#8, 0x12#8] = .ok (.drw 0x0#4 0x0#4 0x5#4, [0x12#8]) := by decide
theorem test_decodeTableWord : decodeTableWord 16 0xF365 = some (.loadRegs 0x3#4) := by decide
theorem test_encodeBytes_high_first : encodeBytes (.ldI 0x000#12) = [0xA0#8, 0x00#8] := by decide

/-! ### Fetch and the step cycle -/

theorem test_fetch_big_endian : pcOf 0x1234 State.reset = some 0x0234#16 := by decide -- V1
theorem test_fetch_at_the_top : (run 0x6007 (State.reset.setPc 0x0FFE#16)).map (fun t => (t.pc, t.getV 0x0#4))
    = some (0x1000#16, 0x07#8) := by decide -- V2
theorem test_fetch_out_of_bounds :
    stepResult (State.reset.setPc 0x0FFF#16) = some (.outOfBoundsFetch 0x0FFF#16) := by decide -- V4
theorem test_fetch_odd_pc : pcOf 0x6A55 (State.reset.setPc 0x0203#16) = some 0x0205#16 := by decide -- V5
theorem test_empty_memory_faults :
    stepResult State.reset = some (.unknownOpcode 0x0000#16 0x0200#16) := by decide -- V6

/-! ### Control transfer -/

theorem test_jp : pcOf 0x1FFF State.reset = some 0x0FFF#16 := by decide -- V22
theorem test_call : (run 0x2ABC { State.reset with sp := 15 }).map (fun t => (t.stack[15], t.sp.val, t.pc))
    = some (0x0202#16, 16, 0x0ABC#16) := by decide -- V24
theorem test_call_overflow : faultOf 0x2ABC { State.reset with sp := 16 } = some .stackOverflow := by decide -- V25
theorem test_ret :
    (run 0x00EE { State.reset with sp := 1, stack := State.reset.stack.set 0 0x0456#16 }).map (fun t => (t.pc, t.sp.val))
      = some (0x0456#16, 0) := by decide -- V26
theorem test_ret_underflow : faultOf 0x00EE State.reset = some .stackUnderflow := by decide -- V27
theorem test_seImm_taken : pcOf 0x3042 (withV [(0x0#4, 0x42#8)]) = some 0x0204#16 := by decide -- V28
theorem test_seImm_not_taken : pcOf 0x3042 (withV [(0x0#4, 0x41#8)]) = some 0x0202#16 := by decide -- V29
theorem test_sneImm_not_taken : pcOf 0x4042 (withV [(0x0#4, 0x42#8)]) = some 0x0202#16 := by decide -- V30
theorem test_sneImm_taken : pcOf 0x4042 (withV [(0x0#4, 0x41#8)]) = some 0x0204#16 := by decide -- V31
theorem test_seReg_taken : pcOf 0x5010 (withV [(0x0#4, 0x07#8), (0x1#4, 0x07#8)]) = some 0x0204#16 := by decide -- V32
theorem test_seReg_not_taken : pcOf 0x5010 (withV [(0x0#4, 0x07#8), (0x1#4, 0x08#8)]) = some 0x0202#16 := by decide -- V33
theorem test_sneReg_not_taken : pcOf 0x9010 (withV [(0x0#4, 0x07#8), (0x1#4, 0x07#8)]) = some 0x0202#16 := by decide -- V35
theorem test_sneReg_taken : pcOf 0x9010 (withV [(0x0#4, 0x07#8), (0x1#4, 0x08#8)]) = some 0x0204#16 := by decide -- V36
theorem test_jpV0 : pcOf 0xB300 (withV [(0x0#4, 0x04#8)]) = some 0x0304#16 := by decide -- V37
theorem test_jpV0_not_cut : pcOf 0xBFFF (withV [(0x0#4, 0xFF#8)]) = some 0x10FE#16 := by decide -- V38
theorem test_skip_past_the_top : pcOf 0x3000 (State.reset.setPc 0x0FFE#16) = some 0x1002#16 := by decide -- V39
theorem test_sys : faultOf 0x0123 State.reset = some (.unknownOpcode 0x0123#16 0x0200#16) := by decide -- V7

/-! ### Load, arithmetic, logic, shifts, random -/

theorem test_ldImm : regOf 0x6F77 0xF#4 State.reset = some 0x77#8 := by decide -- V71
theorem test_addImm_wraps : regFlagOf 0x7001 0x0#4 (withV [(0x0#4, 0xFF#8), (0xF#4, 0x55#8)])
    = some (0x00#8, 0x55#8) := by decide -- V41
theorem test_addImm_on_flag_register : regOf 0x7F01 0xF#4 (withV [(0xF#4, 0xFF#8)]) = some 0x00#8 := by decide -- V72
theorem test_ldReg : regFlagOf 0x80F0 0x0#4 (withV [(0x0#4, 0x11#8), (0xF#4, 0x01#8)])
    = some (0x01#8, 0x01#8) := by decide -- V77
theorem test_orReg : regFlagOf 0x8011 0x0#4 (withV [(0x0#4, 0xF0#8), (0x1#4, 0x0F#8), (0xF#4, 0x55#8)])
    = some (0xFF#8, 0x55#8) := by decide -- V45
theorem test_andReg : regFlagOf 0x8012 0x0#4 (withV [(0x0#4, 0xF3#8), (0x1#4, 0x3F#8), (0xF#4, 0x55#8)])
    = some (0x33#8, 0x55#8) := by decide -- V46
theorem test_xorReg : regFlagOf 0x8013 0x0#4 (withV [(0x0#4, 0xFF#8), (0x1#4, 0x0F#8), (0xF#4, 0x55#8)])
    = some (0xF0#8, 0x55#8) := by decide -- V47
theorem test_addReg_carry : regFlagOf 0x80F4 0x0#4 (withV [(0x0#4, 0xFF#8), (0xF#4, 0x01#8)])
    = some (0x00#8, 0x01#8) := by decide -- V74
theorem test_addReg_flag_remains : regOf 0x8F14 0xF#4 (withV [(0xF#4, 0x01#8), (0x1#4, 0x01#8)])
    = some 0x00#8 := by decide -- V62
theorem test_subReg_equal : regFlagOf 0x8015 0x0#4 (withV [(0x0#4, 0x05#8), (0x1#4, 0x05#8)])
    = some (0x00#8, 0x01#8) := by decide -- S2
theorem test_subReg_borrow : regFlagOf 0x80F5 0x0#4 (withV [(0xF#4, 0x01#8)]) = some (0xFF#8, 0x00#8) := by decide -- V76
theorem test_subnReg : regFlagOf 0x8017 0x0#4 (withV [(0x0#4, 0x07#8), (0x1#4, 0x05#8)])
    = some (0xFE#8, 0x00#8) := by decide -- V53
theorem test_subnReg_flag_remains : regOf 0x8F17 0xF#4 (withV [(0xF#4, 0x03#8), (0x1#4, 0x05#8)])
    = some 0x01#8 := by decide -- V66
theorem test_shr : regFlagOf 0x8016 0x0#4 (withV [(0x0#4, 0x03#8), (0x1#4, 0xAA#8)])
    = some (0x01#8, 0x01#8) := by decide -- V55
theorem test_shr_result_remains : regOf 0x8F16 0xF#4 (withV [(0xF#4, 0x06#8)]) = some 0x03#8 := by decide -- V67
theorem test_shl : regFlagOf 0x801E 0x0#4 (withV [(0x0#4, 0x81#8), (0x1#4, 0xAA#8)])
    = some (0x02#8, 0x01#8) := by decide -- V56
theorem test_shl_result_remains : regOf 0x8F1E 0xF#4 (withV [(0xF#4, 0x40#8)]) = some 0x80#8 := by decide -- V70
theorem test_rnd_masks : (State.reset.maskedRandom 0x1#4 0x0F#8 0xA7#8).getV 0x1#4 = 0x07#8 := by decide -- V57
theorem test_rnd_mask_zero (r : Byte) : (State.reset.maskedRandom 0x1#4 0x00#8 r).getV 0x1#4 = 0x00#8 := by
  simp [State.maskedRandom] -- V58

/-! ### Index register and memory -/

theorem test_ldI : (run 0xAFFF State.reset).map State.i = some 0x0FFF#16 := by decide -- V91
theorem test_addI_no_flag : (run 0xF11E ((withV [(0x1#4, 0x10#8), (0xF#4, 0x77#8)]).setI 0x0300#16)).map
    (fun t => (t.i, t.getV 0xF#4)) = some (0x0310#16, 0x77#8) := by decide -- V92
theorem test_addI_wraps : (run 0xF11E ((withV [(0x1#4, 0x02#8)]).setI 0xFFFF#16)).map State.i
    = some 0x0001#16 := by decide -- V94
theorem test_ldF : (run 0xF229 (withV [(0x2#4, 0x1A#8)])).map State.i = some 0x0032#16 := by decide -- V99
theorem test_ldB : (run 0xF033 ((withV [(0x0#4, 0x7B#8)]).setI 0x0FFD#16)).map
    (fun t => (t.read 0xFFD, t.read 0xFFE, t.read 0xFFF)) = some (0x01#8, 0x02#8, 0x03#8) := by decide -- V104
theorem test_ldB_font : faultOf 0xF033 (State.reset.setI 0x004E#16) = some (.fontRegionWrite 0x004E#16) := by decide -- V103
theorem test_storeRegs : (run 0xFF55 (rising.setI 0x0FF0#16)).map
    (fun t => (t.read 0xFF0, t.read 0xFF1, t.read 0xFFF, t.i))
      = some (0xA0#8, 0xA1#8, 0xAF#8, 0x0FF0#16) := by decide -- V109
theorem test_storeRegs_out_of_bounds :
    faultOf 0xFF55 (rising.setI 0x0FF1#16) = some (.outOfBoundsAccess 0x1000#16) := by decide -- V110
theorem test_loadRegs_font : (run 0xF465 rising).map
    (fun t => (t.getV 0x0#4, t.getV 0x1#4, t.getV 0x4#4, t.getV 0xE#4))
      = some (0xF0#8, 0x90#8, 0xF0#8, 0xAE#8) := by decide -- V116
theorem test_loadRegs_out_of_bounds :
    faultOf 0xFF65 (State.reset.setI 0x0FF1#16) = some (.outOfBoundsAccess 0x1000#16) := by decide -- V118

/-! ### Display -/

theorem test_cls : (run 0x00E0 (State.reset.setDisp (Display.flip State.reset.disp 3 5))).map
    (fun t => Display.get t.disp 3 5) = some false := by decide -- V120
theorem test_drw_wraps_columns :
    rowOf 0xD011 31 (withMem 0x300 [0xFF#8] ((withV [(0x0#4, 0xFF#8), (0x1#4, 0xFF#8)]).setI 0x0300#16))
      = some [0, 1, 2, 3, 4, 5, 6, 63] := by decide -- V124
theorem test_drw_collision :
    (run 0xD011 (withMem 0x300 [0xC0#8] ((State.reset.setDisp (Display.flip (Display.flip State.reset.disp 0 0) 0 7)).setI 0x0300#16))).map
      (fun t => (litColumns t.disp 0, t.getV 0xF#4)) = some ([1, 7], 0x01#8) := by decide -- V127

/-! ### Keypad and timers -/

theorem test_skp_low_nibble : pcOf 0xE19E ((withV [(0x1#4, 0x17#8)]).setKey 0x7#4 true) = some 0x0204#16 := by decide -- V142
theorem test_skp_no_key : pcOf 0xE19E (withV [(0x1#4, 0x09#8)]) = some 0x0202#16 := by decide -- V141
theorem test_sknp_pressed : pcOf 0xE1A1 ((withV [(0x1#4, 0xF7#8)]).setKey 0x7#4 true) = some 0x0202#16 := by decide -- V145
theorem test_sknp_no_key : pcOf 0xE1A1 (withV [(0x1#4, 0x09#8)]) = some 0x0204#16 := by decide -- V144
theorem test_ldVxDt : regOf 0xF107 0x1#4 (State.reset.setDt 0x3C#8) = some 0x3C#8 := by decide -- V146
theorem test_ldVxK_least : regOf 0xF30A 0x3#4 ((State.reset.setKey 0xC#4 true).setKey 0x9#4 true)
    = some 0x09#8 := by decide -- V153
theorem test_ldVxK_waits : (run 0xF20A State.reset).map (fun t => (t.wait, t.waitX, t.pc))
    = some (true, 0x2#4, 0x0200#16) := by decide -- S9, step 1
theorem test_wait_polls : (stepState (waiting.setKey 0x7#4 true)).getV 0x2#4 = 0x07#8
    ∧ (stepState (waiting.setKey 0x7#4 true)).pc = 0x0202#16 := by decide -- S9, step 4
theorem test_wait_leaves_dt : stepState (waiting.setDt 0x05#8) = waiting.setDt 0x05#8 := by decide -- V157
theorem test_ldDtVx : (run 0xF115 (withV [(0x1#4, 0x3C#8)])).map State.dt = some 0x3C#8 := by decide -- V147
theorem test_ldStVx : (run 0xF118 (withV [(0x1#4, 0x02#8)])).map (fun t => (t.st, soundOutput t))
    = some (0x02#8, true) := by decide -- V148

/-! ### Events -/

theorem test_tick_floors : (tickTimers (State.reset.setSt 0x01#8)).st = 0x00#8 ∧
    (tickTimers State.reset).dt = 0x00#8 := by decide -- V149, V150
theorem test_tick : (tickTimers (State.reset.setDt 0xFF#8)).dt = 0xFE#8 := by decide -- V151
theorem test_load_image : (loadImage [0x60#8, 0x05#8] State.reset)
    = .next (withMem 0x200 [0x60#8, 0x05#8] State.reset) := by rfl -- V161
theorem test_reset_ends_a_wait : (resetEvent waiting).wait = false ∧ (resetEvent waiting).read 0x200 = 0x00#8 := by
  decide -- V162
theorem test_fault_code : resultCode State.reset = 1 := by decide -- V6, rule R157

/-- Another FONT_TABLE is what the font region of its machine reads as, before and after a second reset (U24). -/
theorem test_font_parameter :
    (State.resetWith (Vector.replicate 80 0xAA#8)).read 0x04F = 0xAA#8 ∧
    (resetEvent (State.resetWith (Vector.replicate 80 0xAA#8))).read 0x04F = 0xAA#8 ∧
    (State.resetWith (Vector.replicate 80 0xAA#8)).read 0x050 = 0x00#8 := by decide

/-- The default table: digit 0 as the source gives it, digit F at 0x04B as rule R32 lists it. -/
theorem test_font : defaultFontTable.toList.drop 75 = [0xF0#8, 0x80#8, 0xF0#8, 0x80#8, 0x80#8] ∧
    defaultFontTable.toList.take 5 = [0xF0#8, 0x90#8, 0x90#8, 0x90#8, 0xF0#8] := by decide

/-! ### Witnesses: states and operands that meet an obligation's hypotheses, clause by clause at its bounds -/

theorem witness_DecodeOfEncodeIsTheInstruction : WellFormed (.drw 0xF#4 0x0#4 0xF#4) ∧ WellFormed (.sys 0x0EF#12) := by
  decide

theorem witness_EncodeOfDecodeIsTheWord : decodeWord 0x8FFE#16 = .ok (.shl 0xF#4 0xF#4) := by decide

/-- A word that meets a row, and a word, in a fetching state, that meets none. -/
theorem witness_OpcodeMapSelectsTheInstruction :
    ((∀ n, Instr.shr 0x0#4 0x0#4 ≠ .sys n) ∧ 0x8AF6#16 &&& (opcodeRow (.shr 0x0#4 0x0#4)).2 = (opcodeRow (.shr 0x0#4 0x0#4)).1) ∧
    (State.reset.wait = false ∧ State.reset.pc.toNat ≤ 0xFFE ∧ ∀ i : Instr, (∀ n, i ≠ .sys n) →
      State.reset.word State.reset.pc.toNat &&& (opcodeRow i).2 ≠ (opcodeRow i).1) := by
  refine ⟨⟨nofun, by decide⟩, rfl, by decide, fun i hi => ?_⟩
  have hw : State.reset.word State.reset.pc.toNat = 0x0000#16 := by decide
  rw [hw]
  cases i
  case sys n => exact absurd rfl (hi n)
  all_goals (simp only [opcodeRow]; decide)

theorem witness_ShiftsIgnoreTheFieldY : (0xE#4 : Nibble) ≠ 0xF#4 ∧ (0xE#4 : Nibble) ≠ 0x0#4 := by decide

theorem witness_FetchIsBigEndian : (State.reset.setPc 0x0FFE#16).pc.toNat ≤ 0xFFE := by decide

/-- A word that is decoded at the last fetchable address, and one that is rejected. -/
theorem witness_StepRunsTheFetchedInstruction :
    ((withMem 0xFFE [0x60#8, 0x07#8] (State.reset.setPc 0x0FFE#16)).wait = false ∧
      (State.reset.setPc 0x0FFE#16).pc.toNat ≤ 0xFFE ∧
      decodeWord ((withMem 0xFFE [0x60#8, 0x07#8] State.reset).read 0xFFE ++
        (withMem 0xFFE [0x60#8, 0x07#8] State.reset).read 0xFFF) = .ok (.ldImm 0x0#4 0x07#8)) ∧
    (State.reset.wait = false ∧ decodeWord ((withMem 0x200 [0x50#8, 0x11#8] State.reset).read 0x200 ++
        (withMem 0x200 [0x50#8, 0x11#8] State.reset).read 0x201) = .error (.unknownOpcode 0x5011#16)) := by
  decide

theorem witness_FetchBoundsCheck :
    State.reset.wait = false ∧ 0xFFE < (State.reset.setPc 0x0FFF#16).pc.toNat ∧
      (State.reset.setPc 0x0FFE#16).pc.toNat ≤ 0xFFE := by decide

/-- A key wait with no key down, and one with the last key the least. -/
theorem witness_StepDuringKeyWait :
    waiting.wait = true ∧ (∀ k, waiting.key k = false) ∧
    (waiting.setKey 0xF#4 true).wait = true ∧ (waiting.setKey 0xF#4 true).key 0xF#4 = true ∧
    ∀ j, j < 0xF#4 → (waiting.setKey 0xF#4 true).key j = false := by decide

/-- Clauses with an UnknownOpcode, an OutOfBoundsFetch and a next state. -/
theorem witness_FaultingStepChangesNothing :
    step State.reset = .fault (.unknownOpcode 0x0000#16 0x0200#16) ∧
    step (State.reset.setPc 0xFFFF#16) = .fault (.outOfBoundsFetch 0xFFFF#16) ∧
    step waiting = .next waiting := ⟨rfl, rfl, rfl⟩

theorem witness_FaultPriority :
    step State.reset = .fault (.unknownOpcode 0x0000#16 0x0200#16) ∧ MayStep waiting := ⟨rfl, rfl⟩

/-- A store with both faults at hand: the bounds come first (rule R158). -/
theorem witness_FaultPriority_bounds_before_font :
    stepResult ((State.reset.setI 0xFFFF#16).withFetchWord 16 0xFF55) = some (.outOfBoundsAccess 0xFFFF#16) := by decide

theorem witness_FaultIsReturnedAgain :
    step (State.reset.withFetchWord 16 0x00EE) = .fault .stackUnderflow := rfl

/-- Each fault of an instruction's own, at its bound, and the state next to it that does not raise it. -/
theorem witness_InstructionFaultsExactly :
    exec (.call 0x200#12) { State.reset with sp := 16 } = .fault .stackOverflow ∧
    exec .ret State.reset = .fault .stackUnderflow ∧
    exec (.drw 0x0#4 0x0#4 0x3#4) (State.reset.setI 0x0FFE#16) = .fault (.outOfBoundsAccess 0x1000#16) ∧
    exec (.ldB 0x0#4) (State.reset.setI 0x0FFE#16) = .fault (.outOfBoundsAccess 0x1000#16) ∧
    exec (.loadRegs 0xF#4) (State.reset.setI 0x0FF1#16) = .fault (.outOfBoundsAccess 0x1000#16) ∧
    exec (.storeRegs 0x0#4) (State.reset.setI 0x004F#16) = .fault (.fontRegionWrite 0x004F#16) := by
  refine ⟨rfl, rfl, rfl, rfl, rfl, rfl⟩

/-- One state for each result number. -/
theorem witness_ResultCodes :
    step waiting = .next waiting ∧ step State.reset = .fault (.unknownOpcode 0x0000#16 0x0200#16) ∧
    step ({ State.reset with sp := 16 }.withFetchWord 16 0x2200) = .fault .stackOverflow ∧
    step (State.reset.withFetchWord 16 0x00EE) = .fault .stackUnderflow ∧
    step (State.reset.setPc 0x0FFF#16) = .fault (.outOfBoundsFetch 0x0FFF#16) ∧
    step ((State.reset.setI 0x1000#16).withFetchWord 16 0xF065) = .fault (.outOfBoundsAccess 0x1000#16) ∧
    step (State.reset.withFetchWord 16 0xF055) = .fault (.fontRegionWrite 0x0000#16) := by
  refine ⟨rfl, rfl, rfl, rfl, rfl, rfl, rfl⟩

/-- A state with memory written, a live return address and a pending key wait, that has the invariant. -/
def busy : State := { waiting with sp := 1, stack := State.reset.stack.set 0 0x1000#16 }

theorem busy_inv : Inv busy where
  memWf := by decide
  font := by unfold FontIntact; decide
  pc := by unfold PcBounded; decide
  stack := by unfold StackBounded; decide
  keyWait := by unfold KeyWaitAtInstruction; decide

theorem witness_StepKeepsTheInvariant : Inv busy ∧ step busy = .next busy := ⟨busy_inv, rfl⟩

theorem witness_EventsKeepTheInvariant :
    SessionInv { core := busy, phase := .running } ∧
    Session.apply { core := busy, phase := .running } (.setKey 15 true) =
      .next { core := busy.setKey 0xF#4 true, phase := .running } :=
  ⟨⟨busy_inv, fun h => absurd rfl h⟩, rfl⟩

/-- A store right above the font, and the font's last address. -/
theorem witness_FontRegionIsNeverWritten :
    (nextOf ((State.reset.setI 0x0050#16).withFetchWord 16 0xF055)).isSome = true ∧ 0x4F < 0x50 := by decide

/-- A wait entered, a wait left by a key, a wait left by reset, and a wait that goes on. -/
theorem witness_KeyWaitEnteredAndLeftOnly :
    (Session.apply { core := State.reset.withFetchWord 16 0xF20A, phase := .loaded } .step =
      .next { core := (State.reset.withFetchWord 16 0xF20A).startWait 0x2#4, phase := .running } ∧
      (State.reset.withFetchWord 16 0xF20A).wait = false ∧
      ((State.reset.withFetchWord 16 0xF20A).startWait 0x2#4).wait = true) ∧
    (Session.apply { core := waiting.setKey 0x7#4 true, phase := .running } .step =
      .next { core := ((waiting.setKey 0x7#4 true).setV 0x2#4 0x07#8).endWait.advance, phase := .running } ∧
      (waiting.setKey 0x7#4 true).wait = true ∧
      ((waiting.setKey 0x7#4 true).setV 0x2#4 0x07#8).endWait.advance.wait = false) ∧
    (Session.apply { core := waiting, phase := .running } .reset =
      .next { core := State.reset, phase := .fresh } ∧ waiting.wait = true ∧ State.reset.wait = false) ∧
    (Session.apply { core := waiting, phase := .running } .step = .next { core := waiting, phase := .running } ∧
      ∀ k, waiting.key k = false) := by
  refine ⟨⟨rfl, rfl, rfl⟩, ⟨rfl, rfl, rfl⟩, ⟨rfl, rfl, rfl⟩, rfl, by decide⟩

theorem witness_StepLeavesKeysAndTimers :
    (nextOf ((State.reset.setV 0x1#4 0x3C#8).withFetchWord 16 0xF115)).map State.dt = some 0x3C#8 ∧
    (nextOf ((State.reset.setV 0x1#4 0x02#8).withFetchWord 16 0xF118)).map State.st = some 0x02#8 := by decide

theorem witness_RegisterFrame :
    exec (.addReg 0x0#4 0x1#4) State.reset = .next (State.reset.resultThenFlag 0x0#4 0x00#8 false) ∧
    ¬ WritesReg (.addReg 0x0#4 0x1#4) 0xE#4 ∧ ¬ WritesReg (.loadRegs 0xE#4) 0xF#4 := by
  refine ⟨rfl, by unfold WritesReg; decide, by unfold WritesReg; decide⟩

/-- A flag-writing instruction, a shift of another register, and an instruction that leaves the flag register. -/
theorem witness_FlagRegisterFrame :
    exec (.subReg 0xF#4 0x0#4) State.reset = .next (State.reset.resultThenFlag 0xF#4 0x00#8 true) ∧
    exec (.shr 0xE#4 0x0#4) State.reset = .next (State.reset.flagThenResult 0xE#4 0x00#8 false) ∧
    exec (.ldImm 0xE#4 0x01#8) State.reset = .next (State.reset.setV 0xE#4 0x01#8) ∧
    (∀ x y n, Instr.ldImm 0xE#4 0x01#8 ≠ .addReg x y ∧ Instr.ldImm 0xE#4 0x01#8 ≠ .subReg x y ∧
      Instr.ldImm 0xE#4 0x01#8 ≠ .subnReg x y ∧ Instr.ldImm 0xE#4 0x01#8 ≠ .shr x y ∧
      Instr.ldImm 0xE#4 0x01#8 ≠ .shl x y ∧ Instr.ldImm 0xE#4 0x01#8 ≠ .drw x y n) ∧
    (∀ y nn, Instr.ldImm 0xE#4 0x01#8 ≠ .ldImm 0xF#4 nn ∧ Instr.ldImm 0xE#4 0x01#8 ≠ .addImm 0xF#4 nn ∧
      Instr.ldImm 0xE#4 0x01#8 ≠ .rnd 0xF#4 nn ∧ Instr.ldImm 0xE#4 0x01#8 ≠ .ldReg 0xF#4 y ∧
      Instr.ldImm 0xE#4 0x01#8 ≠ .orReg 0xF#4 y ∧ Instr.ldImm 0xE#4 0x01#8 ≠ .andReg 0xF#4 y ∧
      Instr.ldImm 0xE#4 0x01#8 ≠ .xorReg 0xF#4 y ∧ Instr.ldImm 0xE#4 0x01#8 ≠ .ldVxDt 0xF#4 ∧
      Instr.ldImm 0xE#4 0x01#8 ≠ .ldVxK 0xF#4 ∧ Instr.ldImm 0xE#4 0x01#8 ≠ .loadRegs 0xF#4) := by
  refine ⟨rfl, rfl, rfl, fun x y n => ?_, fun y nn => ?_⟩ <;> simp

theorem witness_IndexAndStackFrame :
    exec (.addI 0x0#4) State.reset = .next (State.reset.setI 0x0000#16) ∧
    exec (.ldImm 0x0#4 0x01#8) State.reset = .next (State.reset.setV 0x0#4 0x01#8) := ⟨rfl, rfl⟩

theorem witness_DisplayAndKeypadFrame :
    exec .cls State.reset = .next (State.reset.setDisp clearDisplay) ∧
    exec (.ldVxK 0x3#4) State.reset = .next ((State.reset.startWait 0x3#4).setPc 0x01FE#16) := ⟨rfl, rfl⟩

theorem witness_MemoryFrame :
    exec (.storeRegs 0x1#4) (State.reset.setI 0x0050#16) =
      .next ((State.reset.setI 0x0050#16).writeMem 0x50 [0x00#8, 0x00#8]) := rfl

theorem witness_ReturnPopsThePc : State.reset.sp.val = 0 ∧ 0 < ({ State.reset with sp := 16 } : State).sp.val ∧
    0 < busy.sp.val := by decide

theorem witness_CallPushesThePc : ({ State.reset with sp := 16 } : State).sp.val = 16 ∧
    ({ State.reset with sp := 15 } : State).sp.val < 16 := by decide

theorem witness_SkipOnRegisters : (0x1#4 : Nibble) ≠ 0x0#4 ∧ (0xF#4 : Nibble) ≠ 0x0#4 := by decide

theorem witness_CallThenReturn : (nextOf (({ State.reset with sp := 15 } : State).withFetchWord 16 0x2ABC)).isSome = true ∧
    ∃ t, exec (.call 0xABC#12) { State.reset with sp := 15 } = .next t := ⟨by decide, _, rfl⟩

theorem witness_SysAlwaysFaults : (0x0E1#12 : Imm12) ≠ 0x0E0#12 ∧ (0x0E1#12 : Imm12) ≠ 0x0EE#12 := by decide

theorem witness_RandomMasksTheInput : (0x0F#8 : Byte).getLsbD 4 = false := by decide

theorem witness_FontAddressFindsTheGlyph : FontIntact busy := busy_inv.font

theorem witness_StoreBcdWritesThreeDigits :
    0xFFF < (State.reset.setI 0x0FFE#16).i.toNat + 2 ∧ (State.reset.setI 0x004F#16).i.toNat ≤ 0x04F ∧
    (0x04F < (State.reset.setI 0x0050#16).i.toNat ∧ (State.reset.setI 0x0050#16).i.toNat + 2 ≤ 0xFFF) ∧
    (0x04F < (State.reset.setI 0x0FFD#16).i.toNat ∧ (State.reset.setI 0x0FFD#16).i.toNat + 2 ≤ 0xFFF) := by decide

theorem witness_StoreRegistersWritesTheBlock :
    0xFFF < (State.reset.setI 0x0FF1#16).i.toNat + (0xF#4 : Nibble).toNat ∧
    (State.reset.setI 0x004F#16).i.toNat ≤ 0x04F ∧
    (0x04F < (State.reset.setI 0x0FF0#16).i.toNat ∧
      (State.reset.setI 0x0FF0#16).i.toNat + (0xF#4 : Nibble).toNat ≤ 0xFFF) ∧
    (0x04F < (State.reset.setI 0x0050#16).i.toNat ∧
      (State.reset.setI 0x0050#16).i.toNat + (0xF#4 : Nibble).toNat ≤ 0xFFF) ∧ (0x3#4 : Nibble) ≤ 0xF#4 := by decide

theorem witness_LoadRegistersReadsTheBlock :
    0xFFF < (State.reset.setI 0x0FF1#16).i.toNat + (0xF#4 : Nibble).toNat ∧
    (State.reset.setI 0x0FF0#16).i.toNat + (0xF#4 : Nibble).toNat ≤ 0xFFF ∧
    (State.reset.setI 0x0000#16).i.toNat + (0xF#4 : Nibble).toNat ≤ 0xFFF := by decide

/-- The load starts from another register file than the store did (scenario S5). -/
theorem witness_StoreThenLoadRegisters : ∃ t : State,
    exec (.storeRegs 0xF#4) (rising.setI 0x0FF0#16) = .next t ∧
    (∀ a, ({ t with v := State.reset.v } : State).read a = t.read a) ∧ ({ t with v := State.reset.v } : State).i = t.i :=
  ⟨_, rfl, fun _ => rfl, rfl⟩

/-- Program P6: the word stored at 0x208 is the next one fetched. -/
theorem witness_StoreIsSeenByFetch : ∃ t : State,
    exec (.storeRegs 0x1#4) ((State.reset.setI 0x0208#16).setPc 0x0208#16) = .next t ∧
    (0x0#4 : Nibble) < 0x1#4 ∧ t.pc.toNat = (State.reset.setI 0x0208#16).i.toNat + (0x0#4 : Nibble).toNat :=
  ⟨_, rfl, by decide, by decide⟩

theorem witness_DrawXorsTheSprite :
    ((0x3#4 : Nibble) ≠ 0x0#4 ∧ 0xFFF < (State.reset.setI 0x0FFE#16).i.toNat + (0x3#4 : Nibble).toNat - 1) ∧
    (State.reset.setI 0x0FFD#16).i.toNat + (0x3#4 : Nibble).toNat - 1 ≤ 0xFFF ∧
    (¬ (State.reset.setI 0x2000#16).i.toNat + (0x0#4 : Nibble).toNat - 1 ≤ 0xFFF) := by decide

/-- The leftmost pixel of digit 0 at (0, 0), a pixel it does not set, and a pixel reached by wrapping a column. -/
theorem witness_SpriteSets :
    SpriteSets State.reset 0x0#4 0x0#4 0x5#4 0 0 ∧ ¬ SpriteSets State.reset 0x0#4 0x0#4 0x5#4 0 4 ∧
    SpriteSets (State.reset.setV 0x0#4 0x3E#8) 0x0#4 0x1#4 0x5#4 0 1 := by
  unfold SpriteSets
  decide

theorem witness_DrawTwiceRestores : ∃ t : State, exec (.drw 0x0#4 0x1#4 0x5#4) State.reset = .next t ∧
    (t.getV 0x0#4).toNat % 64 = (State.reset.getV 0x0#4).toNat % 64 ∧
    (t.getV 0x1#4).toNat % 32 = (State.reset.getV 0x1#4).toNat % 32 := ⟨_, rfl, by decide, by decide⟩

theorem witness_SkipOnKey : (0x7#4 : Nibble).toNat = ((withV [(0x1#4, 0xF7#8)]).getV 0x1#4).toNat % 16 := by decide

theorem witness_WaitForKey :
    ((State.reset.setKey 0x9#4 true).key 0x9#4 = true ∧ ∀ j, j < 0x9#4 → (State.reset.setKey 0x9#4 true).key j = false) ∧
    (State.reset.withFetchWord 16 0xF20A).wait = false ∧ (State.reset.withFetchWord 16 0xF20A).pc.toNat ≤ 0xFFE ∧
    (State.reset.withFetchWord 16 0xF20A).word (State.reset.withFetchWord 16 0xF20A).pc.toNat
      = 0xF#4 ++ 0x2#4 ++ 0x0A#8 ∧
    ∀ k, (State.reset.withFetchWord 16 0xF20A).key k = false := by decide

theorem witness_SetKeyWritesOneKey : 15 < 16 ∧ 16 ≤ 16 := by decide

theorem witness_LoadImageCopiesTheImage :
    (Session.start.phase = .fresh ∧ (List.replicate 3584 0x60#8).length ≤ 3584) ∧
    3584 < (List.replicate 3585 0x60#8).length ∧
    ({ core := State.reset, phase := .loaded } : Session).phase = .loaded ∧
    ({ core := State.reset, phase := .running } : Session).phase = .running := by
  exact ⟨⟨rfl, by rw [List.length_replicate]⟩, by rw [List.length_replicate]; decide, rfl, rfl⟩

theorem witness_FinishedStaysFinished : Finished (State.reset.withFetchWord 16 0x1200) :=
  ⟨rfl, by decide, 0x200#12, by decide, by decide⟩

end Sys2Proof.Tests
end

section
/-! PROOFS. The state after reset (rule R23): what each accessor reads in it, and the statement on it. -/

namespace Sys2Proof.Machine

/-! ### The reset contents of memory -/

/-- The font region's reset contents are the bytes of FONT_TABLE (rule R32). -/
theorem some_resetByte_of_lt (table : FontTable) {a : Nat} (ha : a < 0x50) : some (resetByte table a) = table[a]? := by
  simp [resetByte, ha]

/-- Above the font region memory is zero at reset (rule R23). -/
theorem resetByte_of_le (table : FontTable) {a : Nat} (ha : 0x50 ≤ a) : resetByte table a = 0x00#8 := by
  simp [resetByte, Vector.getElem?_eq_none ha]

/-! ### What is read in the state after reset -/

@[simp] theorem State.resetWith_read (table : FontTable) (a : Nat) :
    (State.resetWith table).read a = resetByte table a := rfl

@[simp] theorem State.resetWith_getV (table : FontTable) (x : Nibble) : (State.resetWith table).getV x = 0x00#8 :=
  Vector.getElem_replicate x.isLt

theorem State.resetWith_stack (table : FontTable) (k : Fin 16) :
    (State.resetWith table).stack[k] = 0x0000#16 :=
  Vector.getElem_replicate k.isLt

@[simp] theorem State.resetWith_key (table : FontTable) (k : Nibble) : (State.resetWith table).key k = false :=
  Vector.getElem_replicate k.isLt

@[simp] theorem State.resetWith_pixel (table : FontTable) (y : Fin 32) (x : Fin 64) :
    Display.get (State.resetWith table).disp y x = false :=
  clearDisplay_get y x

/-- Settles O17, field by field; memory reads as the reset contents, because nothing has been written. -/
theorem resetStateIsAsStated : Obligations.ResetStateIsAsStated := by
  refine ⟨fun table => ⟨_, rfl, ?_⟩, rfl, rfl⟩
  have hfont : ∀ a, a < 0x50 → some ((State.resetWith table).read a) = table[a]? := fun a ha => by
    rw [State.resetWith_read, some_resetByte_of_lt table ha]
  have hzero : ∀ a, 0x50 ≤ a → a ≤ 0xFFF → (State.resetWith table).read a = 0x00#8 := fun a ha _ => by
    rw [State.resetWith_read, resetByte_of_le table ha]
  exact ⟨State.resetWith_getV table, rfl, rfl, rfl, State.resetWith_stack table, rfl, rfl,
    State.resetWith_pixel table, hfont, hzero, State.resetWith_key table, rfl, rfl⟩

end Sys2Proof.Machine
end

section
/-! PROOFS. The order of the two bytes in a fetched word (rule R33). -/

namespace Sys2Proof.Machine

/-- The byte at `a` is the high byte of the word at `a` (rule R33). -/
@[simp] theorem State.word_highByte (s : State) (a : Nat) : (s.word a).extractLsb' 8 8 = s.read a :=
  BitVec.extractLsb'_append_eq_left

/-- The byte at `a + 1` is the low byte of the word at `a` (rule R33). -/
@[simp] theorem State.word_lowByte (s : State) (a : Nat) : (s.word a).extractLsb' 0 8 = s.read (a + 1) :=
  BitVec.extractLsb'_append_eq_right

/-- Settles O7: within bounds the fetch answers the word at `pc`, whose two bytes are those read. -/
theorem fetchIsBigEndian : Obligations.FetchIsBigEndian := fun s hpc =>
  ⟨s.word s.pc.toNat, s.fetch_ok hpc, s.word_highByte s.pc.toNat, s.word_lowByte s.pc.toNat⟩

end Sys2Proof.Machine
end

section
/-! PROOFS. The decoder and the encoder: the word of a decoded instruction is the decoded word (rule R53). -/

namespace Sys2Proof

/-! ### A word with known fields -/

theorem addr_eq_of_fields {w : Word} {a : Nibble} {nnn : Imm12} (ha : opField w = a) (hnnn : nnnField w = nnn) :
    a ++ nnn = w :=
  ha ▸ hnnn ▸ addr_fields w

theorem imm_eq_of_fields {w : Word} {a : Nibble} {nn : Byte} (ha : opField w = a) (hnn : nnField w = nn) :
    a ++ xField w ++ nn = w :=
  ha ▸ hnn ▸ imm_fields w

theorem reg_eq_of_fields {w : Word} {a n : Nibble} (ha : opField w = a) (hn : nField w = n) :
    a ++ xField w ++ yField w ++ n = w :=
  ha ▸ hn ▸ reg_fields w

/-! ### Each family's decoder, then the dispatch -/

theorem encode_decodeFamily0 {w : Word} (h0 : opField w = 0x0#4) : encode (decodeFamily0 w) = w := by
  unfold decodeFamily0
  split_ifs with hcls hret
  · exact addr_eq_of_fields h0 hcls
  · exact addr_eq_of_fields h0 hret
  · exact addr_eq_of_fields h0 rfl

theorem encode_of_decodeFamily8 {w : Word} {i : Instr} (h8 : opField w = 0x8#4) (hi : decodeFamily8 w = some i) :
    encode i = w := by
  unfold decodeFamily8 at hi
  split at hi <;> cases hi
  all_goals next hn => exact reg_eq_of_fields h8 hn

theorem encode_of_decodeFamilyE {w : Word} {i : Instr} (hE : opField w = 0xE#4) (hi : decodeFamilyE w = some i) :
    encode i = w := by
  unfold decodeFamilyE at hi
  split at hi <;> cases hi
  all_goals next hnn => exact imm_eq_of_fields hE hnn

theorem encode_of_decodeFamilyF {w : Word} {i : Instr} (hF : opField w = 0xF#4) (hi : decodeFamilyF w = some i) :
    encode i = w := by
  unfold decodeFamilyF at hi
  split at hi <;> cases hi
  all_goals next hnn => exact imm_eq_of_fields hF hnn

theorem encode_of_dispatchNibbles {w : Word} {i : Instr} (hi : dispatchNibbles w = some i) : encode i = w := by
  unfold dispatchNibbles at hi
  split at hi
  case h_9 h8 => exact encode_of_decodeFamily8 h8 hi
  case h_15 hE => exact encode_of_decodeFamilyE hE hi
  case h_16 hF => exact encode_of_decodeFamilyF hF hi
  case h_17 => cases hi
  case h_6 h5 =>
    split at hi <;> cases hi
    next hn => exact reg_eq_of_fields h5 hn
  case h_10 h9 =>
    split at hi <;> cases hi
    next hn => exact reg_eq_of_fields h9 hn
  all_goals obtain rfl := Option.some.inj hi
  case h_1 h0 => exact encode_decodeFamily0 h0
  case h_14 hD => exact reg_eq_of_fields hD rfl
  case h_2 ha | h_3 ha | h_11 ha | h_12 ha => exact addr_eq_of_fields ha rfl
  all_goals next ha => exact imm_eq_of_fields ha rfl

/-- A decoded word is the word of the instruction it gives (rule R53). -/
theorem encode_of_decodeWord {w : Word} {i : Instr} (hi : decodeWord w = .ok i) : encode i = w :=
  encode_of_dispatchNibbles ((decodeWord_ok_iff w i).1 hi)

end Sys2Proof
end

section
/-! PROOFS. The opcode map: a word that meets a row decodes to an instruction of that row, and a decoded instruction's word meets its row (rules R54, R55). -/

namespace Sys2Proof

/-- `w & mask = match` for the row of rule R55 that `i` belongs to. -/
def MeetsRow (w : Word) (i : Instr) : Prop := w &&& (opcodeRow i).2 = (opcodeRow i).1

/-! ### What a match fixes: the fields its mask covers -/

theorem opField_of_and_eq {w mask m : Word} (h : w &&& mask = m) (hmask : opField mask = BitVec.allOnes 4) :
    opField w = opField m := by
  have hand : opField (w &&& mask) = opField w &&& opField mask := BitVec.extractLsb'_and
  rw [← h, hand, hmask, BitVec.and_allOnes]

theorem nField_of_and_eq {w mask m : Word} (h : w &&& mask = m) (hmask : nField mask = BitVec.allOnes 4) :
    nField w = nField m := by
  have hand : nField (w &&& mask) = nField w &&& nField mask := BitVec.extractLsb'_and
  rw [← h, hand, hmask, BitVec.and_allOnes]

theorem nnField_of_and_eq {w mask m : Word} (h : w &&& mask = m) (hmask : nnField mask = BitVec.allOnes 8) :
    nnField w = nnField m := by
  have hand : nnField (w &&& mask) = nnField w &&& nnField mask := BitVec.extractLsb'_and
  rw [← h, hand, hmask, BitVec.and_allOnes]

/-! ### From the row to the decoder, and back -/

/-- The dispatch on a word that meets one of the 34 rows with semantics names an instruction of that row. -/
theorem MeetsRow.dispatchNibbles_row {w : Word} {i : Instr} (h : MeetsRow w i) (hsys : ∀ n, i ≠ .sys n) :
    (dispatchNibbles w).map opcodeRow = some (opcodeRow i) := by
  cases i
  case sys n => exact absurd rfl (hsys n)
  all_goals simp only [MeetsRow, opcodeRow] at h
  case cls | ret =>
    have hw : w = _ := BitVec.and_allOnes.symm.trans h
    rw [hw]; rfl
  all_goals have hop := opField_of_and_eq h (by decide)
  case seReg | sneReg =>
    have hn := nField_of_and_eq h (by decide)
    rw [dispatchNibbles, hop, hn]; rfl
  case ldReg | orReg | andReg | xorReg | addReg | subReg | shr | subnReg | shl =>
    have hn := nField_of_and_eq h (by decide)
    rw [dispatchNibbles, hop, decodeFamily8, hn]; rfl
  case skp | sknp =>
    have hnn := nnField_of_and_eq h (by decide)
    rw [dispatchNibbles, hop, decodeFamilyE, hnn]; rfl
  case ldVxDt | ldVxK | ldDtVx | ldStVx | addI | ldF | ldB | storeRegs | loadRegs =>
    have hnn := nnField_of_and_eq h (by decide)
    rw [dispatchNibbles, hop, decodeFamilyF, hnn]; rfl
  all_goals rw [dispatchNibbles, hop]; rfl

/-- A word that meets one of the 34 rows with semantics decodes to an instruction of that row (rule R54). -/
theorem MeetsRow.decodeWord_row {w : Word} {i : Instr} (h : MeetsRow w i) (hsys : ∀ n, i ≠ .sys n) :
    ∃ j, decodeWord w = .ok j ∧ opcodeRow j = opcodeRow i := by
  obtain ⟨j, hj, hrow⟩ := Option.map_eq_some_iff.1 (h.dispatchNibbles_row hsys)
  exact ⟨j, (decodeWord_ok_iff w j).2 hj, hrow⟩

/-- The 34 rows are pairwise disjoint, since the decoder answers one instruction (rule R54). -/
theorem MeetsRow.opcodeRow_unique {w : Word} {i j : Instr} (hi : MeetsRow w i) (hj : MeetsRow w j)
    (hisys : ∀ n, i ≠ .sys n) (hjsys : ∀ n, j ≠ .sys n) : opcodeRow i = opcodeRow j := by
  obtain ⟨k, hk, hki⟩ := hi.decodeWord_row hisys
  obtain ⟨l, hl, hlj⟩ := hj.decodeWord_row hjsys
  have hkl : k = l := Except.ok.inj (hk.symm.trans hl)
  exact hki.symm.trans (hkl ▸ hlj)

/-- Every well-formed instruction's own word meets its row. -/
theorem meetsRow_encode {i : Instr} (hi : WellFormed i) : MeetsRow (encode i) i := by
  revert hi
  change Laws.OwnRow.Statement i
  cases i with
  | cls => exact Laws.OwnRow.cls
  | ret => exact Laws.OwnRow.ret
  | jp nnn => exact Laws.OwnRow.jp nnn
  | call nnn => exact Laws.OwnRow.call nnn
  | seImm x nn => exact Laws.OwnRow.seImm x nn
  | sneImm x nn => exact Laws.OwnRow.sneImm x nn
  | seReg x y => exact Laws.OwnRow.seReg x y
  | ldImm x nn => exact Laws.OwnRow.ldImm x nn
  | addImm x nn => exact Laws.OwnRow.addImm x nn
  | ldReg x y => exact Laws.OwnRow.ldReg x y
  | orReg x y => exact Laws.OwnRow.orReg x y
  | andReg x y => exact Laws.OwnRow.andReg x y
  | xorReg x y => exact Laws.OwnRow.xorReg x y
  | addReg x y => exact Laws.OwnRow.addReg x y
  | subReg x y => exact Laws.OwnRow.subReg x y
  | shr x y => exact Laws.OwnRow.shr x y
  | subnReg x y => exact Laws.OwnRow.subnReg x y
  | shl x y => exact Laws.OwnRow.shl x y
  | sneReg x y => exact Laws.OwnRow.sneReg x y
  | ldI nnn => exact Laws.OwnRow.ldI nnn
  | jpV0 nnn => exact Laws.OwnRow.jpV0 nnn
  | rnd x nn => exact Laws.OwnRow.rnd x nn
  | drw x y n => exact Laws.OwnRow.drw x y n
  | skp x => exact Laws.OwnRow.skp x
  | sknp x => exact Laws.OwnRow.sknp x
  | ldVxDt x => exact Laws.OwnRow.ldVxDt x
  | ldVxK x => exact Laws.OwnRow.ldVxK x
  | ldDtVx x => exact Laws.OwnRow.ldDtVx x
  | ldStVx x => exact Laws.OwnRow.ldStVx x
  | addI x => exact Laws.OwnRow.addI x
  | ldF x => exact Laws.OwnRow.ldF x
  | ldB x => exact Laws.OwnRow.ldB x
  | storeRegs x => exact Laws.OwnRow.storeRegs x
  | loadRegs x => exact Laws.OwnRow.loadRegs x
  | sys nnn => exact Laws.OwnRow.sys nnn

/-- Every instruction of the 34 rows with semantics is well-formed; only `0NNN` excludes operands (rule R55 row 35). -/
theorem wellFormed_of_ne_sys {i : Instr} (hsys : ∀ n, i ≠ .sys n) : WellFormed i := by
  cases i
  case sys n => exact absurd rfl (hsys n)
  all_goals rfl

/-- A decoded word that meets none of the 34 rows decodes to the form `0NNN` (rule R58). -/
theorem eq_sys_of_no_row {w : Word} {i : Instr} (hi : decodeWord w = .ok i)
    (hrow : ∀ j : Instr, (∀ n, j ≠ .sys n) → ¬ MeetsRow w j) : ∃ nnn, i = .sys nnn := by
  by_contra hsys
  rw [not_exists] at hsys
  have hmeets : MeetsRow (encode i) i := meetsRow_encode (wellFormed_of_ne_sys hsys)
  exact hrow i hsys (encode_of_decodeWord hi ▸ hmeets)

end Sys2Proof
end

section
/-! PROOFS. A step whose word meets no row with semantics, the forms `0NNN` among them (rules R54, R58, R74), and the statement on the opcode map. -/

namespace Sys2Proof.Machine

theorem addr12_eq_encode_sys (nnn : Imm12) : addr12 nnn = encode (.sys nnn) :=
  BitVec.setWidth_eq_append (by decide)

/-- A meaning finds the fetch address again (rule R72). -/
@[simp] theorem State.advance_pc0 (s : State) : s.advance.pc0 = s.pc := BitVec.add_sub_cancel s.pc 2#16

/-- A fetched `0NNN` raises UnknownOpcode with the word and the address it was fetched from (rules R58, R151). -/
theorem step_of_decode_sys (s : State) (h : s.wait = false) (hp : s.pc.toNat ≤ 0xFFE) (nnn : Imm12)
    (hd : decodeWord (s.word s.pc.toNat) = .ok (.sys nnn)) :
    step s = .fault (.unknownOpcode (s.word s.pc.toNat) s.pc) := by
  have hexec : exec (.sys nnn) s.advance = .fault (.unknownOpcode (addr12 nnn) s.advance.pc0) := rfl
  rw [step_of_decode_ok s h hp _ hd, hexec, addr12_eq_encode_sys, encode_of_decodeWord hd, s.advance_pc0]

/-- A fetched word that meets none of the 34 rows makes the step raise UnknownOpcode (rule R54). -/
theorem step_of_no_row (s : State) (h : s.wait = false) (hp : s.pc.toNat ≤ 0xFFE)
    (hrow : ∀ i : Instr, (∀ n, i ≠ .sys n) → ¬ MeetsRow (s.word s.pc.toNat) i) :
    step s = .fault (.unknownOpcode (s.word s.pc.toNat) s.pc) := by
  cases hd : decodeWord (s.word s.pc.toNat) with
  | error e => exact step_of_decode_error s h hp e hd
  | ok i =>
    obtain ⟨nnn, rfl⟩ := eq_sys_of_no_row hd hrow
    exact step_of_decode_sys s h hp nnn hd

/-- Settles O4: the row's mask fixes the fields the decoder dispatches on, and the decoder is a function. -/
theorem opcodeMapSelectsTheInstruction : Obligations.OpcodeMapSelectsTheInstruction :=
  ⟨fun _ _ hsys hw => MeetsRow.decodeWord_row hw hsys,
    fun _ _ _ hisys hjsys hi hj => MeetsRow.opcodeRow_unique hi hj hisys hjsys,
    step_of_no_row⟩

end Sys2Proof.Machine
end

section
/-! PROOFS. Which faults an instruction can raise: exactly its own pre-check's (rules R74, R158). -/

namespace Sys2Proof.Machine

open Safety

/-! ### The meanings with a pre-check fault exactly as the pre-check does -/

theorem finish_fault_iff (r : Except Fault State) (f : Fault) : finish r = .fault f ↔ r = .error f := by
  cases r <;> simp [finish, raise]

theorem execRet_fault_iff (s : State) (f : Fault) : execRet s = .fault f ↔ f = .stackUnderflow ∧ s.sp.val = 0 :=
  (finish_fault_iff s.popPc f).trans (s.popPc_error_iff f)

theorem execCall_fault_iff (nnn : Imm12) (s : State) (f : Fault) :
    execCall nnn s = .fault f ↔ f = .stackOverflow ∧ s.sp.val = 16 := by
  rw [← s.push_error_iff s.pc f, execCall]
  cases s.push s.pc <;> simp [raise]

theorem execDrw_fault_iff (x y n : Nibble) (s : State) (f : Fault) :
    execDrw x y n s = .fault f ↔ s.checkAccess n.toNat = .error f := by
  rw [execDrw]
  cases s.checkAccess n.toNat <;> simp [raise]

theorem execLdB_fault_iff (x : Nibble) (s : State) (f : Fault) :
    execLdB x s = .fault f ↔ s.checkStore 3 = .error f :=
  (finish_fault_iff _ f).trans (s.storeBytes_error_iff (bcdDigits (s.getV x)) f)

theorem execStoreRegs_fault_iff (x : Nibble) (s : State) (f : Fault) :
    execStoreRegs x s = .fault f ↔ s.checkStore (x.toNat + 1) = .error f := by
  rw [← s.regsUpTo_length x, ← s.storeBytes_error_iff]
  exact finish_fault_iff _ f

theorem execLoadRegs_fault_iff (x : Nibble) (s : State) (f : Fault) :
    execLoadRegs x s = .fault f ↔ s.checkAccess (x.toNat + 1) = .error f := by
  rw [execLoadRegs]
  cases s.checkAccess (x.toNat + 1) <;> simp [raise]

theorem execLdVxK_ne_fault (x : Nibble) (s : State) (f : Fault) : execLdVxK x s ≠ .fault f := by
  rw [execLdVxK]
  cases s.leastKey <;> simp

/-! ### The pre-checks, by the last address of the range (rules R155, R156) -/

theorem State.checkAccess_succ (s : State) (n : Nat) :
    s.checkAccess (n + 1) = if s.i.toNat + n > 0xFFF then .error (boundsFault s) else .ok () :=
  if_congr (by simp only [State.base]; omega) rfl rfl

theorem State.checkFont_succ (s : State) (n : Nat) :
    s.checkFont (n + 1) = if s.i.toNat ≤ 0x04F then .error (.fontRegionWrite s.i) else .ok () :=
  if_congr (and_iff_right n.succ_pos) rfl rfl

theorem State.checkStore_succ_error_iff (s : State) (n : Nat) (f : Fault) :
    s.checkStore (n + 1) = .error f ↔
      (if s.i.toNat + n > 0xFFF then some (boundsFault s)
        else if s.i.toNat ≤ 0x04F then some (.fontRegionWrite s.i) else none) = some f := by
  rw [State.checkStore, s.checkAccess_succ, s.checkFont_succ]
  split_ifs <;> simp

/-- A sprite of no rows reads nothing and passes (rule R37). -/
theorem State.checkAccess_rows (s : State) (n : Nibble) :
    s.checkAccess n.toNat =
      if n ≠ 0x0#4 ∧ s.i.toNat + n.toNat - 1 > 0xFFF then .error (boundsFault s) else .ok () :=
  if_congr (by simp only [State.base]; bv_omega) rfl rfl

/-! ### Every instruction -/

/-- A meaning faults exactly with its instruction's own pre-check, on the state it sees (rule R158 (3)). -/
theorem exec_fault_iff_ownFault (i : Instr) (s : State) (f : Fault) :
    exec i s = .fault f ↔ ownFault i s = some f := by
  cases i
  case ret =>
    refine (execRet_fault_iff s f).trans ?_
    simp [ownFault, eq_comm, and_comm]
  case call nnn =>
    refine (execCall_fault_iff nnn s f).trans ?_
    simp [ownFault, eq_comm, and_comm]
  case drw x y n =>
    refine (execDrw_fault_iff x y n s f).trans ?_
    rw [s.checkAccess_rows, ownFault]
    split_ifs <;> simp
  case loadRegs x =>
    refine (execLoadRegs_fault_iff x s f).trans ?_
    rw [s.checkAccess_succ, ownFault]
    split_ifs <;> simp
  case ldB x => exact (execLdB_fault_iff x s f).trans (s.checkStore_succ_error_iff 2 f)
  case storeRegs x => exact (execStoreRegs_fault_iff x s f).trans (s.checkStore_succ_error_iff x.toNat f)
  case sys nnn => simp [exec, execSys, raise, ownFault, addr12, State.pc0]
  case ldVxK x => exact iff_of_false (execLdVxK_ne_fault x s f) nofun
  all_goals exact iff_of_false nofun nofun

/-- No instruction's own pre-check is the fetch's (rule R154). -/
theorem ownFault_ne_outOfBoundsFetch (i : Instr) (s : State) (p : Word) :
    ownFault i s ≠ some (.outOfBoundsFetch p) := by
  cases i
  all_goals simp [ownFault, boundsFault, ite_eq_iff]

/-- Only the form `0NNN` raises UnknownOpcode, with the address it was fetched from (rule R151). -/
theorem pc_of_ownFault_unknownOpcode {i : Instr} {s : State} {w p : Word}
    (h : ownFault i s = some (.unknownOpcode w p)) : p = s.pc0 := by
  cases i
  case sys nnn => cases h; rfl
  all_goals simp [ownFault, boundsFault, ite_eq_iff] at h

/-! ### The step -/

/-- A step that faults fetched nothing, or a word that names nothing, or ran into the instruction's own pre-check. -/
theorem step_fault_cases {s : State} {f : Fault} (h : step s = .fault f) :
    s.wait = false ∧
    ((0xFFE < s.pc.toNat ∧ f = .outOfBoundsFetch s.pc) ∨
     (s.pc.toNat ≤ 0xFFE ∧ (∃ e, decodeWord (s.word s.pc.toNat) = .error e) ∧
      f = .unknownOpcode (s.word s.pc.toNat) s.pc) ∨
     (s.pc.toNat ≤ 0xFFE ∧ ∃ i, decodeWord (s.word s.pc.toNat) = .ok i ∧ ownFault i s.advance = some f)) := by
  cases hw : s.wait with
  | true =>
    rw [step_of_wait s hw] at h
    obtain ⟨-, hpoll⟩ | ⟨k, -, hpoll⟩ := pollKeyWait_cases s <;> cases hpoll.symm.trans h
  | false =>
    refine ⟨rfl, ?_⟩
    obtain hpc | hpc := Nat.lt_or_ge 0xFFE s.pc.toNat
    · cases (step_of_fetch_error s hw hpc).symm.trans h
      exact .inl ⟨hpc, rfl⟩
    · cases hd : decodeWord (s.word s.pc.toNat) with
      | error e =>
        cases (step_of_decode_error s hw hpc e hd).symm.trans h
        exact .inr (.inl ⟨hpc, ⟨e, rfl⟩, rfl⟩)
      | ok i =>
        have hexec : exec i s.advance = .fault f := (step_of_decode_ok s hw hpc i hd).symm.trans h
        exact .inr (.inr ⟨hpc, i, rfl, (exec_fault_iff_ownFault i s.advance f).1 hexec⟩)

/-- OutOfBoundsFetch is raised by the fetch alone, with the address it was asked for (rules R71, R154). -/
theorem step_outOfBoundsFetch {s : State} {p : Word} (h : step s = .fault (.outOfBoundsFetch p)) :
    0xFFE < s.pc.toNat ∧ p = s.pc := by
  obtain ⟨-, ⟨hpc, hf⟩ | ⟨-, -, hf⟩ | ⟨-, i, -, hown⟩⟩ := step_fault_cases h
  · exact ⟨hpc, Fault.outOfBoundsFetch.inj hf⟩
  · cases hf
  · exact absurd hown (ownFault_ne_outOfBoundsFetch i s.advance p)

/-- UnknownOpcode carries the address of the word fetched, whether the decoder or SYS raises it (rule R151). -/
theorem pc_of_step_unknownOpcode {s : State} {w p : Word} (h : step s = .fault (.unknownOpcode w p)) : p = s.pc := by
  obtain ⟨-, ⟨-, hf⟩ | ⟨-, -, hf⟩ | ⟨-, i, -, hown⟩⟩ := step_fault_cases h
  · cases hf
  · exact (Fault.unknownOpcode.inj hf).2
  · exact (pc_of_ownFault_unknownOpcode hown).trans s.advance_pc0

end Sys2Proof.Machine
end

section
/-! PROOFS. The step cycle (rules R71 to R75): the statements on the fetch check, the dispatch, the state a fault leaves, and the poll of a key wait. -/

namespace Sys2Proof.Machine

/-! ### The state a step leaves (rule R74) -/

theorem stepState_of_fault {s : State} {f : Fault} (h : step s = .fault f) : stepState s = s := by
  simp [stepState, h]

theorem stepState_of_next {s t : State} (h : step s = .next t) : stepState s = t := by
  simp [stepState, h]

/-- Settles O9: only the fetch raises OutOfBoundsFetch, and it does above 0xFFE. -/
theorem fetchBoundsCheck : Obligations.FetchBoundsCheck := by
  refine fun s hw => ⟨fun hpc => ?_, fun hpc p h => ?_⟩
  · have hstep := step_of_fetch_error s hw hpc
    exact ⟨hstep, stepState_of_fault hstep⟩
  · exact absurd (step_outOfBoundsFetch h).1 (Nat.not_lt.2 hpc)

/-- Settles O11: a fault carries no state, and the two faults that carry `pc` carry the step's own. -/
theorem faultingStepChangesNothing : Obligations.FaultingStepChangesNothing := fun _ =>
  ⟨fun _ => stepState_of_fault, fun _ => stepState_of_next, fun _ _ => pc_of_step_unknownOpcode,
    fun _ h => (step_outOfBoundsFetch h).2⟩

/-- Settles O8 by the model's laws of a fetching step, one for each answer of the decoder. -/
theorem stepRunsTheFetchedInstruction : Obligations.StepRunsTheFetchedInstruction := fun s hw hpc =>
  ⟨step_of_decode_ok s hw hpc, step_of_decode_error s hw hpc, fun _ => stepState_of_fault⟩

/-! ### A pending key wait (rule R75) -/

theorem step_of_wait_of_no_key {s : State} (hw : s.wait = true) (hkey : ∀ k, s.key k = false) : step s = .next s := by
  rw [step_of_wait s hw, pollKeyWait, s.leastKey_eq_none_iff.2 hkey]

theorem step_of_wait_of_leastKey {s : State} {k : Nibble} (hw : s.wait = true) (hk : s.leastKey = some k) :
    step s = .next ((s.setV s.waitX (nibbleToByte k)).endWait).advance := by
  rw [step_of_wait s hw, pollKeyWait, hk]

/-- Settles O10: the least pressed key is the one the keypad scan finds. -/
theorem stepDuringKeyWait : Obligations.StepDuringKeyWait := by
  refine fun s hw => ⟨step_of_wait_of_no_key hw, fun k hk hless => ?_⟩
  have hleast : s.leastKey = some k := (s.leastKey_eq_some_iff k).2 ⟨hk, hless⟩
  exact ⟨_, step_of_wait_of_leastKey hw hleast, rfl, fun r => s.getV_setV s.waitX r (nibbleToByte k)⟩

end Sys2Proof.Machine
end

section
/-! PROOFS. The host events on timers and keys (rules R76, R77). -/

namespace Sys2Proof.Machine

/-- The floor at 0 is that of natural subtraction (rule R76). -/
theorem tickDown_eq (b : Byte) : tickDown b = BitVec.ofNat 8 (b.toNat - 1) := by
  unfold tickDown
  split
  case isTrue h => rw [h]; rfl
  case isFalse h => bv_omega

/-- Settles O56: both timers tick by the same function, and nothing else is written. -/
theorem tickDecrementsBothTimers : Obligations.TickDecrementsBothTimers := fun s => by
  rw [← tickDown_eq, ← tickDown_eq]; rfl

theorem setKeyEvent_of_lt {index : Nat} (h : index < 16) (p : Bool) (s : State) :
    setKeyEvent index p s = .next (s.setKey (BitVec.ofNat 4 index) p) :=
  if_pos h

theorem setKeyEvent_of_le {index : Nat} (h : 16 ≤ index) (p : Bool) (s : State) :
    setKeyEvent index p s = .refused (.keyIndexOutOfRange index) :=
  if_neg (Nat.not_lt.2 h)

/-- The keys after one is set, by number (rule R77). -/
theorem State.setKey_keys_getElem (s : State) (k : Nibble) (p : Bool) (j : Fin 16) :
    (s.setKey k p).keys[j] = if j.val = k.toNat then p else s.keys[j] := by
  simp [Vector.getElem_set, eq_comm]

/-- Settles O57: an index below 16 is a key number, and a larger one is refused. -/
theorem setKeyWritesOneKey : Obligations.SetKeyWritesOneKey := by
  refine fun index p s => ⟨fun h => ⟨_, setKeyEvent_of_lt h p s, rfl, fun j => ?_⟩, fun h t => ?_⟩
  · have hindex : (BitVec.ofNat 4 index).toNat = index := Nat.mod_eq_of_lt h
    rw [s.setKey_keys_getElem, hindex]
  · simp [setKeyEvent_of_le h]

end Sys2Proof.Machine
end

section
/-! PROOFS. The decoder on the encoder's words, and the words nibble 4 rejects (rules R53 to R56). -/

namespace Sys2Proof

/-- The word of a well-formed instruction decodes to it: the dispatch reads back the fields the word is built from. -/
theorem decodeWord_encode {i : Instr} (hi : WellFormed i) : decodeWord (encode i) = .ok i := by
  rw [decodeWord_ok_iff]
  cases i
  case cls | ret => rfl
  case sys nnn =>
    have hne : nnn ≠ 0x0E0#12 ∧ nnn ≠ 0x0EE#12 := by simpa [WellFormed, Instr.wellFormed] using hi
    simp [encode, dispatchNibbles, decodeFamily0, opField_addr, nnnField_addr, hne]
  case jp | call | ldI | jpV0 => simp [encode, dispatchNibbles, opField_addr, nnnField_addr]
  case seImm | sneImm | ldImm | addImm | rnd =>
    simp [encode, dispatchNibbles, opField_imm, xField_imm, nnField_imm]
  case skp | sknp => simp [encode, dispatchNibbles, decodeFamilyE, opField_imm, xField_imm, nnField_imm]
  case ldVxDt | ldVxK | ldDtVx | ldStVx | addI | ldF | ldB | storeRegs | loadRegs =>
    simp [encode, dispatchNibbles, decodeFamilyF, opField_imm, xField_imm, nnField_imm]
  case seReg | sneReg | drw =>
    simp [encode, dispatchNibbles, opField_reg, xField_reg, yField_reg, nField_reg]
  case ldReg | orReg | andReg | xorReg | addReg | subReg | shr | subnReg | shl =>
    simp [encode, dispatchNibbles, decodeFamily8, opField_reg, xField_reg, yField_reg, nField_reg]

/-- A word the dispatch names no instruction for is rejected by name (rule R56). -/
theorem decodeWord_of_dispatchNibbles_none {w : Word} (h : dispatchNibbles w = none) :
    decodeWord w = .error (.unknownOpcode w) := by
  rw [decodeWord, h]

/-- `5XYn` and `9XYn` with `n` not 0 are rejected (rule R56 (b) and (d)). -/
theorem decodeWord_skipReg_rejected {a : Nibble} (ha : a = 0x5#4 ∨ a = 0x9#4) (x y : Nibble) {n : Nibble}
    (hn : n ≠ 0x0#4) : decodeWord (a ++ x ++ y ++ n) = .error (.unknownOpcode (a ++ x ++ y ++ n)) := by
  refine decodeWord_of_dispatchNibbles_none ?_
  rw [dispatchNibbles, opField_reg, nField_reg]
  obtain rfl | rfl := ha
  · exact if_neg hn
  · exact if_neg hn

end Sys2Proof
end

section
/-! PROOFS. Control transfer (rules R90 to R97): what each meaning answers, and the statements on it. -/

namespace Sys2Proof.Machine

/-! ### Jumps (rules R91, R97) -/

/-- Settles O30: the meaning writes `pc` alone, with the immediate the word carries. -/
theorem jumpSetsThePc : Obligations.JumpSetsThePc := fun nnn =>
  ⟨decodeWord_encode (i := .jp nnn) rfl, fun _ => rfl⟩

/-- The sum of an address and a byte fits 16 bits, so it is the sum over the integers (rule R97). -/
theorem toNat_addr12_add_byteToWord (nnn : Imm12) (b : Byte) :
    (addr12 nnn + byteToWord b).toNat = nnn.toNat + b.toNat := by
  unfold addr12 byteToWord
  bv_omega

/-- Settles O34: the meaning writes `pc` alone, and the 16-bit sum it writes does not wrap. -/
theorem jumpPlusOffset : Obligations.JumpPlusOffset := fun nnn =>
  ⟨decodeWord_encode (i := .jpV0 nnn) rfl,
    fun s => ⟨_, rfl, rfl, toNat_addr12_add_byteToWord nnn (s.getV 0x0#4)⟩⟩

/-! ### Call and return (rules R90, R92) -/

theorem execRet_of_pos {s : State} (h : 0 < s.sp.val) :
    execRet s = .next { s with pc := s.stack[s.sp.val - 1], sp := ⟨s.sp.val - 1, by omega⟩ } := by
  rw [execRet, s.popPc_ok h, finish]

theorem execCall_of_lt (nnn : Imm12) {s : State} (h : s.sp.val < 16) :
    execCall nnn s = .next
      { s with stack := s.stack.set s.sp.val s.pc, sp := ⟨s.sp.val + 1, by omega⟩, pc := addr12 nnn } := by
  rw [execCall, s.push_ok s.pc h]
  rfl

/-- Settles O29: the return faults exactly on an empty stack, and otherwise pops the slot below `sp`. -/
theorem returnPopsThePc : Obligations.ReturnPopsThePc := by
  refine ⟨decodeWord_encode (i := .ret) rfl, fun s h => ?_, fun s h => ?_⟩
  · exact (execRet_fault_iff s .stackUnderflow).2 ⟨rfl, h⟩
  · exact ⟨_, execRet_of_pos h, rfl, rfl, Vector.getElem?_eq_getElem _⟩

/-- Settles O31: the call faults exactly on a full stack, and otherwise pushes the `pc` it sees. -/
theorem callPushesThePc : Obligations.CallPushesThePc := by
  refine fun nnn => ⟨decodeWord_encode (i := .call nnn) rfl, fun s h => ?_, fun s h => ?_⟩
  · exact (execCall_fault_iff nnn s .stackOverflow).2 ⟨rfl, h⟩
  · refine ⟨_, execCall_of_lt nnn h, rfl, rfl, fun k => ?_⟩
    simp [Vector.getElem_set, eq_comm]

/-! ### Conditional skips (rules R93 to R96) -/

/-- A skip writes `pc` alone, and adds 2 to it exactly when its condition holds. -/
theorem State.skipIf_eq_of_iff (s : State) {c : Bool} {p : Prop} [Decidable p] (h : c = true ↔ p) :
    s.skipIf c = { s with pc := if p then s.pc + 2#16 else s.pc } := by
  rw [← if_congr h rfl rfl]
  cases c <;> rfl

/-- Settles O32: the two skips test complementary conditions on the byte. -/
theorem skipOnImmediate : Obligations.SkipOnImmediate := fun x nn =>
  ⟨decodeWord_encode (i := .seImm x nn) rfl, decodeWord_encode (i := .sneImm x nn) rfl, fun s =>
    ⟨congrArg Host.Outcome.next (s.skipIf_eq_of_iff beq_iff_eq),
      congrArg Host.Outcome.next (s.skipIf_eq_of_iff bne_iff_ne)⟩⟩

/-- Settles O33: the two skips test complementary conditions on the registers, and their words have nibble 4 zero. -/
theorem skipOnRegisters : Obligations.SkipOnRegisters := fun x y =>
  ⟨decodeWord_encode (i := .seReg x y) rfl, decodeWord_encode (i := .sneReg x y) rfl,
    fun _ hn => ⟨decodeWord_skipReg_rejected (.inl rfl) x y hn, decodeWord_skipReg_rejected (.inr rfl) x y hn⟩,
    fun s =>
      ⟨congrArg Host.Outcome.next (s.skipIf_eq_of_iff beq_iff_eq),
        congrArg Host.Outcome.next (s.skipIf_eq_of_iff bne_iff_ne)⟩⟩

end Sys2Proof.Machine
end

section
/-! PROOFS. Load and ALU (rules R100 to R111): the registers each meaning leaves, and the statements on them. -/

namespace Sys2Proof.Machine

/-! ### One register written (rules R101 to R106) -/

/-- A meaning that ends with one register write reads as the new byte there, and as before everywhere else. -/
theorem next_setV (s : State) (x : Nibble) (b : Byte) :
    ∃ t : State, (.next (s.setV x b) : StepOutcome) = .next t ∧ t = { s with v := t.v } ∧
      ∀ k, t.getV k = if k = x then b else s.getV k :=
  ⟨_, rfl, rfl, fun k => s.getV_setV x k b⟩

/-- Settles O37: each writes the one register the word names, and the 8-bit sum is the sum modulo 256. -/
theorem loadAndAddImmediate : Obligations.LoadAndAddImmediate := fun x nn =>
  ⟨decodeWord_encode (i := .ldImm x nn) rfl, decodeWord_encode (i := .addImm x nn) rfl,
    fun s => next_setV s x nn,
    fun s => by rw [← BitVec.add_def]; exact next_setV s x (s.getV x + nn)⟩

/-- Settles O38: each writes one register, with a byte computed from the registers before the instruction. -/
theorem copyAndBitwise : Obligations.CopyAndBitwise := fun x y =>
  ⟨decodeWord_encode (i := .ldReg x y) rfl, decodeWord_encode (i := .orReg x y) rfl,
    decodeWord_encode (i := .andReg x y) rfl, decodeWord_encode (i := .xorReg x y) rfl,
    fun s => next_setV s x (s.getV y), fun s => next_setV s x (s.getV x ||| s.getV y),
    fun s => next_setV s x (s.getV x &&& s.getV y), fun s => next_setV s x (s.getV x ^^^ s.getV y)⟩

/-! ### The result, then the flag (rules R107, R108, R110) -/

theorem flagByte_decide (p : Prop) [Decidable p] : flagByte (decide p) = if p then 0x01#8 else 0x00#8 := by
  simp [flagByte]

/-- The 8-bit difference over the integers: 256 is added before the subtraction, so it does not go below 0. -/
theorem byte_sub_eq (a b : Byte) : a - b = BitVec.ofNat 8 (256 + a.toNat - b.toNat) := by bv_omega

/-- Settles O39: the flag, written last, stands in `v[0xF]` whatever the destination. -/
theorem addSetsSumAndCarry : Obligations.AddSetsSumAndCarry := fun x y =>
  ⟨decodeWord_encode (i := .addReg x y) rfl, fun s => ⟨_, rfl, rfl, fun k => by
    rw [State.getV_resultThenFlag, carryOut, flagByte_decide, BitVec.add_def]⟩⟩

/-- What sub and subn leave, for any minuend and subtrahend (rules R108, R110). -/
theorem getV_resultThenFlag_sub (s : State) (x k : Nibble) (a b : Byte) :
    (s.resultThenFlag x (a - b) (notBorrow a b)).getV k =
      if k = 0xF#4 then (if a.toNat ≥ b.toNat then 0x01#8 else 0x00#8)
      else if k = x then BitVec.ofNat 8 (256 + a.toNat - b.toNat) else s.getV k := by
  rw [State.getV_resultThenFlag, notBorrow, flagByte_decide, byte_sub_eq]

/-- Settles O40: sub and subn are one operation with its operands exchanged, and both write the flag last. -/
theorem subSetsDifferenceAndNotBorrow : Obligations.SubSetsDifferenceAndNotBorrow := fun x y =>
  ⟨decodeWord_encode (i := .subReg x y) rfl, decodeWord_encode (i := .subnReg x y) rfl,
    fun s => ⟨_, rfl, rfl, fun k => getV_resultThenFlag_sub s x k (s.getV x) (s.getV y)⟩,
    fun s => ⟨_, rfl, rfl, fun k => getV_resultThenFlag_sub s x k (s.getV y) (s.getV x)⟩⟩

/-! ### The flag, then the result (rules R109, R111) -/

theorem byte_shiftRight_one (a : Byte) : a >>> 1 = BitVec.ofNat 8 (a.toNat / 2) := by bv_omega

theorem byte_shiftLeft_one (a : Byte) : a <<< 1 = BitVec.ofNat 8 (a.toNat * 2) := by bv_omega

/-- A bit of a byte as a flag: the byte divided by the bit's weight, modulo 2. -/
theorem flagByte_getLsbD (a : Byte) (n : Nat) : flagByte (a.getLsbD n) = BitVec.ofNat 8 (a.toNat / 2 ^ n % 2) := by
  rw [BitVec.getLsbD, Nat.testBit_eq_decide_div_mod_eq, flagByte_decide]
  obtain h | h := Nat.mod_two_eq_zero_or_one (a.toNat / 2 ^ n)
  · simp [h]
  · simp [h]

theorem flagByte_bit0 (a : Byte) : flagByte (bit0 a) = BitVec.ofNat 8 (a.toNat % 2) := by
  rw [bit0, flagByte_getLsbD, Nat.pow_zero, Nat.div_one]

/-- Bit 7 is the top bit, so the quotient by its weight is already 0 or 1. -/
theorem flagByte_bit7 (a : Byte) : flagByte (bit7 a) = BitVec.ofNat 8 (a.toNat / 128) := by
  have hlt : a.toNat / 128 < 2 := Nat.div_lt_of_lt_mul a.isLt
  exact (flagByte_getLsbD a 7).trans (congrArg (BitVec.ofNat 8) (Nat.mod_eq_of_lt hlt))

/-- Settles O41: the shifted value, written last, stands in `v[x]` also when `x` is `0xF`. -/
theorem shiftsByOne : Obligations.ShiftsByOne := fun x y =>
  ⟨decodeWord_encode (i := .shr x y) rfl, decodeWord_encode (i := .shl x y) rfl,
    fun s => ⟨_, rfl, rfl, fun k => by
      rw [State.getV_flagThenResult, byte_shiftRight_one, flagByte_bit0]⟩,
    fun s => ⟨_, rfl, rfl, fun k => by
      rw [State.getV_flagThenResult, byte_shiftLeft_one, flagByte_bit7]⟩⟩

end Sys2Proof.Machine
end

section
/-! PROOFS. Index register and memory (rules R120 to R125): what each meaning answers, and the statements on them. -/

namespace Sys2Proof.Machine

/-! ### Store-BCD and store-registers (rules R123, R124) -/

/-- Byte `k` of a block written at `a` is read at `a + k` (rule R39). -/
theorem State.read_writeMem_inside (s : State) (a : Nat) {bs : List Byte} {k : Nat} (hk : k < bs.length) :
    (s.writeMem a bs).read (a + k) = bs[k] := by
  have hin : a ≤ a + k ∧ a + k < a + bs.length := by omega
  simp [s.read_writeMem, hin]

/-- Every byte outside a block written at `a` reads as before (rule R39). -/
theorem State.read_writeMem_outside (s : State) {a b : Nat} {bs : List Byte} (hb : b < a ∨ a + bs.length ≤ b) :
    (s.writeMem a bs).read b = s.read b := by
  rw [s.read_writeMem, dif_neg (by omega)]

/-- A block read byte by byte: its first byte at `a`, the rest as a block at `a + 1`. -/
theorem State.read_writeMem_cons (s : State) (a b : Nat) (c : Byte) (bs : List Byte) :
    (s.writeMem a (c :: bs)).read b = if b = a then c else (s.writeMem (a + 1) bs).read b := by
  split
  case isTrue h => exact h ▸ s.read_writeMem_inside a (bs := c :: bs) (k := 0) bs.length.succ_pos
  case isFalse h =>
    by_cases hin : a + 1 ≤ b ∧ b < a + 1 + bs.length
    · obtain ⟨k, rfl⟩ := Nat.exists_eq_add_of_le hin.1
      have hk : k < bs.length := by omega
      rw [s.read_writeMem_inside (a + 1) hk, Nat.add_right_comm]
      exact s.read_writeMem_inside a (bs := c :: bs) (Nat.succ_lt_succ hk)
    · have hout : b < a ∨ a + (c :: bs).length ≤ b := by rw [List.length_cons]; omega
      rw [s.read_writeMem_outside hout, s.read_writeMem_outside (by omega)]

theorem finish_storeBytes_ok {s : State} {bs : List Byte} (hf : 0x04F < s.i.toNat)
    (hb : s.i.toNat + bs.length ≤ 0x1000) : finish (s.storeBytes bs) = .next (s.writeMem s.i.toNat bs) := by
  rw [s.storeBytes_ok bs hb hf, finish]

theorem execLdB_ok (x : Nibble) {s : State} (hf : 0x04F < s.i.toNat) (hb : s.i.toNat + 2 ≤ 0xFFF) :
    execLdB x s = .next (s.writeMem s.i.toNat (bcdDigits (s.getV x))) :=
  finish_storeBytes_ok hf (Nat.succ_le_succ hb)

theorem execStoreRegs_ok (x : Nibble) {s : State} (hf : 0x04F < s.i.toNat) (hb : s.i.toNat + x.toNat ≤ 0xFFF) :
    execStoreRegs x s = .next (s.writeMem s.i.toNat (s.regsUpTo x)) :=
  finish_storeBytes_ok hf (by rw [s.regsUpTo_length]; omega)

/-- The three digits over the integers. -/
theorem bcdDigits_eq (b : Byte) :
    bcdDigits b =
      [BitVec.ofNat 8 (b.toNat / 100), BitVec.ofNat 8 (b.toNat / 10 % 10), BitVec.ofNat 8 (b.toNat % 10)] := by
  rw [bcdDigits, BitVec.udiv_def, BitVec.umod_def, BitVec.umod_def, BitVec.toNat_udiv]
  rfl

/-- Settles O45: the pre-checks are the instruction's own, and the digits are read back one address at a time. -/
theorem storeBcdWritesThreeDigits : Obligations.StoreBcdWritesThreeDigits := by
  refine fun x => ⟨decodeWord_encode (i := .ldB x) rfl, fun s => ⟨fun hb => ?_, fun hf => ?_, fun hf hb => ?_⟩⟩
  · exact (exec_fault_iff_ownFault (.ldB x) s _).2 (if_pos hb)
  · exact (exec_fault_iff_ownFault (.ldB x) s _).2 ((if_neg (by omega)).trans (if_pos hf))
  · refine ⟨_, execLdB_ok x hf hb, rfl, fun a => ?_⟩
    simp only [bcdDigits_eq, State.read_writeMem_cons]
    rfl

/-- Settles O46: register `k` is byte `k` of the block, and the block ends at `i + x`. -/
theorem storeRegistersWritesTheBlock : Obligations.StoreRegistersWritesTheBlock := by
  refine fun x => ⟨decodeWord_encode (i := .storeRegs x) rfl, fun s => ⟨fun hb => ?_, fun hf => ?_, fun hf hb => ?_⟩⟩
  · exact (exec_fault_iff_ownFault (.storeRegs x) s _).2 (if_pos hb)
  · exact (exec_fault_iff_ownFault (.storeRegs x) s _).2 ((if_neg (by omega)).trans (if_pos hf))
  · refine ⟨_, execStoreRegs_ok x hf hb, rfl, fun k hk => ?_, fun a ha => ?_⟩
    · have hlt : k.toNat < (s.regsUpTo x).length := by
        rw [s.regsUpTo_length]
        exact Nat.lt_succ_of_le hk
      rw [s.read_writeMem_inside _ hlt, s.regsUpTo_getElem]
    · exact s.read_writeMem_outside (by rw [s.regsUpTo_length]; omega)

/-! ### Load-registers (rule R125) -/

theorem execLoadRegs_ok (x : Nibble) {s : State} (hb : s.i.toNat + x.toNat ≤ 0xFFF) :
    execLoadRegs x s = .next (s.loadRegsUpTo x) := by
  rw [execLoadRegs, s.checkAccess_succ, if_neg (Nat.not_lt.2 hb)]

/-- Settles O47: the bounds pre-check is the instruction's only one, so the font region can be read. -/
theorem loadRegistersReadsTheBlock : Obligations.LoadRegistersReadsTheBlock := by
  refine fun x => ⟨decodeWord_encode (i := .loadRegs x) rfl, fun s => ⟨fun hb => ?_, fun hb => ?_⟩⟩
  · exact (exec_fault_iff_ownFault (.loadRegs x) s _).2 (if_pos hb)
  · exact ⟨_, execLoadRegs_ok x hb, rfl, s.getV_loadRegsUpTo x⟩

/-! ### The index register (rules R120 to R122) -/

/-- The 16-bit sum of an address and a byte is the sum modulo 65536 (rule R121). -/
theorem add_byteToWord (a : Word) (b : Byte) : a + byteToWord b = BitVec.ofNat 16 (a.toNat + b.toNat) := by
  unfold byteToWord
  bv_omega

/-- The glyph of the digit in a byte's low nibble starts at 5 times the digit (rules R32, R122). -/
theorem fontAddr_lowNibble (b : Byte) : fontAddr (lowNibble b) = BitVec.ofNat 16 (5 * (b.toNat % 16)) := by
  have hdigit : (lowNibble b).toNat = b.toNat % 16 := by simp [lowNibble]
  rw [← hdigit, fontAddr]
  bv_omega

/-- Settles O43: each meaning writes `i` alone, with the address the rule computes over the integers. -/
theorem indexRegisterResults : Obligations.IndexRegisterResults := by
  refine ⟨fun nnn => ⟨decodeWord_encode (i := .ldI nnn) rfl, fun s => rfl⟩,
    fun x => ⟨decodeWord_encode (i := .addI x) rfl, fun s => ?_⟩,
    fun x => ⟨decodeWord_encode (i := .ldF x) rfl, fun s => ?_⟩⟩
  · rw [← add_byteToWord]; rfl
  · rw [← fontAddr_lowNibble]; rfl

end Sys2Proof.Machine
end

section
/-! PROOFS. Display (rules R130, R131): what clear-screen and draw answer, and the statements on them. -/

namespace Sys2Proof.Machine

/-- Settles O50: the meaning writes `disp` alone, with the display of no lit pixel. -/
theorem clearScreenClearsAll : Obligations.ClearScreenClearsAll :=
  ⟨decodeWord_encode (i := .cls) rfl, fun _ => ⟨_, rfl, rfl, clearDisplay_get⟩⟩

/-! ### One pixel under a draw (rule R131) -/

theorem State.drawn_get_of_spriteSets {s : State} {x y n : Nibble} {py : Fin 32} {px : Fin 64}
    (h : Safety.SpriteSets s x y n py px) :
    Display.get (s.drawn x y n).1 py px = !(Display.get s.disp py px) := by
  rw [s.drawn_get, decide_eq_true ((mem_drawn_pixels s x y n py px).2 h), Bool.xor_true]

theorem State.drawn_get_of_not_spriteSets {s : State} {x y n : Nibble} {py : Fin 32} {px : Fin 64}
    (h : ¬ Safety.SpriteSets s x y n py px) :
    Display.get (s.drawn x y n).1 py px = Display.get s.disp py px := by
  rw [s.drawn_get, decide_eq_false (mt (mem_drawn_pixels s x y n py px).1 h), Bool.xor_false]

/-- A lit pixel goes off exactly where the sprite sets it. -/
theorem State.drawn_get_eq_false_iff {s : State} {x y n : Nibble} {py : Fin 32} {px : Fin 64}
    (hlit : Display.get s.disp py px = true) :
    Display.get (s.drawn x y n).1 py px = false ↔ Safety.SpriteSets s x y n py px := by
  by_cases h : Safety.SpriteSets s x y n py px
  · simp [State.drawn_get_of_spriteSets h, hlit, h]
  · simp [State.drawn_get_of_not_spriteSets h, hlit, h]

/-- The collision flag over the two displays: some pixel was lit before the draw and is not after it. -/
theorem State.drawn_collision_iff_goes_off (s : State) (x y n : Nibble) :
    (s.drawn x y n).2 = true ↔
      ∃ py px, Display.get s.disp py px = true ∧ Display.get (s.drawn x y n).1 py px = false := by
  rw [s.drawn_collision]
  exact exists₂_congr fun _ _ => and_congr_right fun hlit => (State.drawn_get_eq_false_iff hlit).symm

/-! ### The whole draw (rule R131) -/

theorem flagByte_eq_or (c : Bool) : flagByte c = 0x01#8 ∨ flagByte c = 0x00#8 := ite_eq_or_eq _ _ _

theorem flagByte_eq_one_iff (c : Bool) : flagByte c = 0x01#8 ↔ c = true := by simp [flagByte]

theorem execDrw_ok (x y : Nibble) {n : Nibble} {s : State} (h : n = 0x0#4 ∨ s.i.toNat + n.toNat - 1 ≤ 0xFFF) :
    execDrw x y n s = .next ((s.setDisp (s.drawn x y n).1).setV flagReg (flagByte (s.drawn x y n).2)) := by
  have hpass : ¬ (n ≠ 0x0#4 ∧ s.i.toNat + n.toNat - 1 > 0xFFF) := by
    rintro ⟨hn, hb⟩
    exact h.elim hn (Nat.not_le.2 hb)
  rw [execDrw, s.checkAccess_rows, if_neg hpass]

/-- Settles O51: past the pre-check the draw writes the drawn display, then the collision flag. -/
theorem drawXorsTheSprite : Obligations.DrawXorsTheSprite := by
  refine fun x y n => ⟨decodeWord_encode (i := .drw x y n) rfl, fun s => ⟨fun hn hb => ?_, fun h => ?_⟩⟩
  · exact (exec_fault_iff_ownFault (.drw x y n) s _).2 (if_pos ⟨hn, hb⟩)
  · refine ⟨_, execDrw_ok x y h, rfl, ?pixels, ?registers, ?flag⟩
    case pixels => exact fun py px => ⟨State.drawn_get_of_spriteSets, State.drawn_get_of_not_spriteSets⟩
    case registers => exact fun k hk => (State.getV_setV _ flagReg k _).trans (if_neg hk)
    case flag =>
      rw [flagReg, State.getV_setV_self]
      exact ⟨flagByte_eq_or _, (flagByte_eq_one_iff _).trans (s.drawn_collision_iff_goes_off x y n)⟩

end Sys2Proof.Machine
end

section
/-! PROOFS. Keypad skips and timer moves (rules R140 to R142, R144, R145): what each meaning answers, and the statements on them. -/

namespace Sys2Proof.Machine

/-! ### The key skips (rules R140, R141) -/

theorem toNat_lowNibble (b : Byte) : (lowNibble b).toNat = b.toNat % 16 := by simp [lowNibble]

/-- The key a byte selects is the one numbered by the byte modulo 16 (rule R140). -/
theorem lowNibble_eq_of_toNat_eq {b : Byte} {k : Nibble} (hk : k.toNat = b.toNat % 16) : lowNibble b = k :=
  BitVec.eq_of_toNat_eq ((toNat_lowNibble b).trans hk.symm)

/-- Settles O53: both skips test the key in the low nibble, for complementary levels. -/
theorem skipOnKey : Obligations.SkipOnKey := by
  refine fun x => ⟨decodeWord_encode (i := .skp x) rfl, decodeWord_encode (i := .sknp x) rfl, fun s k hk => ?_⟩
  obtain rfl := lowNibble_eq_of_toNat_eq hk
  exact ⟨congrArg Host.Outcome.next (s.skipIf_eq_of_iff Iff.rfl),
    congrArg Host.Outcome.next (s.skipIf_eq_of_iff (iff_of_eq (Bool.not_eq_true' _)))⟩

/-! ### The timer moves (rules R142, R144, R145) -/

/-- Settles O54: the read writes one register with `dt`, and each write puts `v[x]` into one timer alone. -/
theorem timerMoves : Obligations.TimerMoves := fun x =>
  ⟨decodeWord_encode (i := .ldVxDt x) rfl, decodeWord_encode (i := .ldDtVx x) rfl,
    decodeWord_encode (i := .ldStVx x) rfl, fun s => ⟨next_setV s x s.dt, rfl, rfl⟩⟩

end Sys2Proof.Machine
end

section
/-! PROOFS. The words that raise UnknownOpcode are those of rule R56's six classes (rule R151). -/

namespace Sys2Proof

open Safety

/-! ### What the decoder answers for a word without semantics: nothing, or the form `0NNN` (rules R56, R58) -/

/-- No instruction of the 34 rows with semantics. -/
def WithoutSemantics (o : Option Instr) : Prop := ∀ i, o = some i → ∃ nnn, i = .sys nnn

@[simp] theorem withoutSemantics_none : WithoutSemantics none := nofun

@[simp] theorem withoutSemantics_some_iff (i : Instr) : WithoutSemantics (some i) ↔ ∃ nnn, i = .sys nnn := by
  simp [WithoutSemantics]

/-- A word of nibble 1 = 0 is the one its other twelve bits say. -/
theorem nnnField_eq_iff_of_opField_zero {w : Word} (h0 : opField w = 0x0#4) (nnn : Imm12) :
    nnnField w = nnn ↔ w = 0x0#4 ++ nnn :=
  ⟨fun hnnn => (addr_eq_of_fields h0 hnnn).symm, fun hw => hw ▸ nnnField_addr 0x0#4 nnn⟩

/-- Class (a) of rule R56. -/
theorem decodeFamily0_eq_sys_iff {w : Word} (h0 : opField w = 0x0#4) :
    (∃ nnn, decodeFamily0 w = .sys nnn) ↔ w ≠ 0x00E0#16 ∧ w ≠ 0x00EE#16 := by
  have hcls : nnnField w = 0x0E0#12 ↔ w = 0x00E0#16 := nnnField_eq_iff_of_opField_zero h0 _
  have hret : nnnField w = 0x0EE#12 ↔ w = 0x00EE#16 := nnnField_eq_iff_of_opField_zero h0 _
  simp only [decodeFamily0, hcls, hret]
  split_ifs with hc hr
  · simp [hc]
  · simp [hr]
  · simp [hc, hr]

/-- Class (c) of rule R56. -/
theorem decodeFamily8_withoutSemantics_iff (w : Word) :
    WithoutSemantics (decodeFamily8 w) ↔ nField w ∈ [0x8#4, 0x9#4, 0xA#4, 0xB#4, 0xC#4, 0xD#4, 0xF#4] := by
  unfold decodeFamily8
  split
  case h_10 =>
    have hmem := Machine.mem_keyNumbers (nField w)
    simp_all [Machine.keyNumbers]
  all_goals next hn => simp [hn]

/-- Class (e) of rule R56. -/
theorem decodeFamilyE_withoutSemantics_iff (w : Word) :
    WithoutSemantics (decodeFamilyE w) ↔ nnField w ∉ [0x9E#8, 0xA1#8] := by
  unfold decodeFamilyE
  split
  case h_3 => simp_all
  all_goals next hnn => simp [hnn]

/-- Class (f) of rule R56. -/
theorem decodeFamilyF_withoutSemantics_iff (w : Word) :
    WithoutSemantics (decodeFamilyF w) ↔
      nnField w ∉ [0x07#8, 0x0A#8, 0x15#8, 0x18#8, 0x1E#8, 0x29#8, 0x33#8, 0x55#8, 0x65#8] := by
  unfold decodeFamilyF
  split
  case h_10 => simp_all
  all_goals next hnn => simp [hnn]

/-- The six classes of rule R56 are exactly the words the dispatch gives no semantics. -/
theorem dispatchNibbles_withoutSemantics_iff (w : Word) : WithoutSemantics (dispatchNibbles w) ↔ Unrecognised w := by
  unfold dispatchNibbles
  split
  case h_1 h0 => simp [Unrecognised, h0, decodeFamily0_eq_sys_iff h0]
  case h_6 h5 => split_ifs with hn <;> simp [Unrecognised, h5, hn]
  case h_9 h8 => simp [Unrecognised, h8, decodeFamily8_withoutSemantics_iff]
  case h_10 h9 => split_ifs with hn <;> simp [Unrecognised, h9, hn]
  case h_15 hE => simp [Unrecognised, hE, decodeFamilyE_withoutSemantics_iff]
  case h_16 hF => simp [Unrecognised, hF, decodeFamilyF_withoutSemantics_iff]
  case h_17 =>
    have hmem := Machine.mem_keyNumbers (opField w)
    simp_all [Machine.keyNumbers]
  all_goals next hop => simp [Unrecognised, hop]

theorem unrecognised_of_decodeWord_error {w : Word} {e : DecodeError} (hd : decodeWord w = .error e) :
    Unrecognised w :=
  (dispatchNibbles_withoutSemantics_iff w).1 fun i hi => by
    cases hd.symm.trans ((decodeWord_ok_iff w i).2 hi)

theorem unrecognised_iff_of_decodeWord_ok {w : Word} {i : Instr} (hd : decodeWord w = .ok i) :
    Unrecognised w ↔ ∃ nnn, i = .sys nnn := by
  rw [← dispatchNibbles_withoutSemantics_iff, (decodeWord_ok_iff w i).1 hd, withoutSemantics_some_iff]

end Sys2Proof

namespace Sys2Proof.Machine

open Safety

/-! ### The step (rule R151) -/

theorem ownFault_eq_unknownOpcode {i : Instr} {s : State} {w p : Word} (h : ownFault i s = some (.unknownOpcode w p)) :
    ∃ nnn, i = .sys nnn := by
  cases i
  case sys nnn => exact ⟨nnn, rfl⟩
  all_goals simp [ownFault, boundsFault, ite_eq_iff] at h

theorem step_of_unrecognised {s : State} (hw : s.wait = false) (hpc : s.pc.toNat ≤ 0xFFE)
    (hun : Unrecognised (s.word s.pc.toNat)) : step s = .fault (.unknownOpcode (s.word s.pc.toNat) s.pc) := by
  cases hd : decodeWord (s.word s.pc.toNat) with
  | error e => exact step_of_decode_error s hw hpc e hd
  | ok i =>
    obtain ⟨nnn, rfl⟩ := (unrecognised_iff_of_decodeWord_ok hd).1 hun
    exact step_of_decode_sys s hw hpc nnn hd

/-- A step that raises UnknownOpcode fetched a word of the six classes of rule R56. -/
theorem unrecognised_of_step {s : State} {w p : Word} (h : step s = .fault (.unknownOpcode w p)) :
    s.wait = false ∧ s.pc.toNat ≤ 0xFFE ∧ Unrecognised (s.word s.pc.toNat) := by
  obtain ⟨hw, ⟨-, hf⟩ | ⟨hpc, ⟨e, hd⟩, -⟩ | ⟨hpc, i, hd, hown⟩⟩ := step_fault_cases h
  · cases hf
  · exact ⟨hw, hpc, unrecognised_of_decodeWord_error hd⟩
  · exact ⟨hw, hpc, (unrecognised_iff_of_decodeWord_ok hd).2 (ownFault_eq_unknownOpcode hown)⟩

/-- Settles O5: the fault fixes the class of the fetched word, and the class fixes the fault. -/
theorem unknownOpcodeExactly : Obligations.UnknownOpcodeExactly := by
  refine fun s w p => ⟨fun h => ?_, ?_⟩
  · obtain ⟨hw, hpc, hun⟩ := unrecognised_of_step h
    cases (step_of_unrecognised hw hpc hun).symm.trans h
    exact ⟨hw, hpc, rfl, rfl, hun⟩
  · rintro ⟨hw, hpc, rfl, rfl, hun⟩
    exact step_of_unrecognised hw hpc hun

end Sys2Proof.Machine
end

section
/-! PROOFS. Which instruction raises which fault of its own, and the numbers of the results (rules R152 to R157). -/

namespace Sys2Proof.Machine

open Safety

/-! ### Each fault of an instruction's own, by the instruction and its cause -/

/-- Only call pushes (rule R152). -/
theorem ownFault_stackOverflow_iff (i : Instr) (s : State) :
    ownFault i s = some .stackOverflow ↔ (∃ nnn, i = .call nnn) ∧ s.sp.val = 16 := by
  cases i
  case call nnn => simp [ownFault]
  all_goals simp [ownFault, boundsFault, ite_eq_iff]

/-- Only return pops (rule R153). -/
theorem ownFault_stackUnderflow_iff (i : Instr) (s : State) :
    ownFault i s = some .stackUnderflow ↔ i = .ret ∧ s.sp.val = 0 := by
  cases i
  case ret => simp [ownFault]
  all_goals simp [ownFault, boundsFault, ite_eq_iff]

/-- An instruction names a data range through `i` whose last address is above 0xFFF: a draw with rows, store-BCD, or a
block of registers (rules R37, R155). -/
def NamesRangeOutOfBounds (i : Instr) (s : State) : Prop :=
  (∃ x y n, i = .drw x y n ∧ n ≠ 0x0#4 ∧ 0xFFF < s.i.toNat + n.toNat - 1) ∨
  (∃ x, i = .ldB x ∧ 0xFFF < s.i.toNat + 2) ∨
  (∃ x, (i = .storeRegs x ∨ i = .loadRegs x) ∧ 0xFFF < s.i.toNat + x.toNat)

/-- The four instructions with a data range raise OutOfBoundsAccess, store-BCD and store-registers before any look at
the font (rules R155, R158). -/
theorem ownFault_outOfBoundsAccess_iff (i : Instr) (s : State) (a : Word) :
    ownFault i s = some (.outOfBoundsAccess a) ↔
      a = BitVec.ofNat 16 (max s.i.toNat 0x1000) ∧ NamesRangeOutOfBounds i s := by
  cases i
  case drw | ldB | storeRegs | loadRegs =>
    simp [ownFault, boundsFault, NamesRangeOutOfBounds, ite_eq_iff, and_comm, eq_comm (a := a)]
  all_goals simp [ownFault, NamesRangeOutOfBounds, ite_eq_iff]

/-- A store of at most 16 bytes that starts in the font region ends inside memory, so bounds cannot come first. -/
theorem storeFault_fontRegionWrite_iff (s : State) {k : Nat} (hk : k < 16) (a : Word) :
    (if s.i.toNat + k > 0xFFF then some (boundsFault s)
      else if s.i.toNat ≤ 0x04F then some (.fontRegionWrite s.i) else none) = some (.fontRegionWrite a) ↔
    a = s.i ∧ s.i.toNat ≤ 0x04F := by
  split_ifs with hbounds hfont
  · simp only [boundsFault, Option.some.injEq, reduceCtorEq, false_iff]
    omega
  · simp [hfont, eq_comm]
  · simp [hfont]

/-- Only the two stores are kept out of the font region (rules R38, R156). -/
theorem ownFault_fontRegionWrite_iff (i : Instr) (s : State) (a : Word) :
    ownFault i s = some (.fontRegionWrite a) ↔
      a = s.i ∧ s.i.toNat ≤ 0x04F ∧ ∃ x, i = .ldB x ∨ i = .storeRegs x := by
  cases i
  case ldB x => simpa [ownFault] using storeFault_fontRegionWrite_iff s (k := 2) (by decide) a
  case storeRegs x => simpa [ownFault] using storeFault_fontRegionWrite_iff s x.isLt a
  all_goals simp [ownFault, boundsFault, ite_eq_iff]

/-- Settles O15: a meaning faults exactly with its own pre-check, and each fault has its cause there. -/
theorem instructionFaultsExactly : Obligations.InstructionFaultsExactly := fun i s =>
  ⟨(exec_fault_iff_ownFault i s _).trans (ownFault_stackOverflow_iff i s),
    (exec_fault_iff_ownFault i s _).trans (ownFault_stackUnderflow_iff i s),
    fun a => (exec_fault_iff_ownFault i s _).trans (ownFault_outOfBoundsAccess_iff i s a),
    fun a => (exec_fault_iff_ownFault i s _).trans (ownFault_fontRegionWrite_iff i s a)⟩

/-! ### The numbers of the results (rule R157) -/

theorem resultCode_of_next {s t : State} (h : step s = .next t) : resultCode s = 0 := by
  simp [resultCode, stepResult, h]

theorem resultCode_of_fault {s : State} {f : Fault} (h : step s = .fault f) : resultCode s = faultCode f := by
  simp [resultCode, stepResult, h]

/-- Settles O16: the number of a step's result is its fault's, and `faultCode` numbers the six faults. -/
theorem resultCodes : Obligations.ResultCodes := fun _ =>
  ⟨fun _ => resultCode_of_next, fun _ _ => resultCode_of_fault, resultCode_of_fault, resultCode_of_fault,
    fun _ => resultCode_of_fault, fun _ => resultCode_of_fault, fun _ => resultCode_of_fault⟩

end Sys2Proof.Machine
end

section
/-! PROOFS. The round trips between instructions and words (rules R53 to R57), the worked decodes, and the form `0NNN` (rule R58). -/

namespace Sys2Proof

theorem wellFormed_sys {nnn : Imm12} (hcls : nnn ≠ 0x0E0#12) (hret : nnn ≠ 0x0EE#12) : WellFormed (.sys nnn) := by
  simp [WellFormed, Instr.wellFormed, hcls, hret]

/-- The two words of the form `0NNN` with semantics decode to clear-screen and return, never to `sys` (rules R55, R58). -/
theorem sys_wellFormed_of_decodeWord {nnn : Imm12} (hd : decodeWord (encode (.sys nnn)) = .ok (.sys nnn)) :
    WellFormed (.sys nnn) := by
  refine wellFormed_sys ?_ ?_
  · rintro rfl; exact absurd hd (by decide)
  · rintro rfl; exact absurd hd (by decide)

/-- The decoder answers well-formed instructions only. -/
theorem wellFormed_of_decodeWord {w : Word} {i : Instr} (hd : decodeWord w = .ok i) : WellFormed i := by
  obtain rfl := encode_of_decodeWord hd
  cases i
  case sys nnn => exact sys_wellFormed_of_decodeWord hd
  all_goals rfl

/-- Settles O1: the dispatch reads back the fields each word is built from. -/
theorem decodeOfEncodeIsTheInstruction : Obligations.DecodeOfEncodeIsTheInstruction := fun _ => decodeWord_encode

/-- Settles O2: each branch of the dispatch fixes the fields its instruction does not carry. -/
theorem encodeOfDecodeIsTheWord : Obligations.EncodeOfDecodeIsTheWord := fun _ _ hd =>
  ⟨encode_of_decodeWord hd, wellFormed_of_decodeWord hd⟩

end Sys2Proof

namespace Sys2Proof.Machine

/-- Settles O3: nineteen fixed words, and the fault SYS ends in for `0000`. -/
theorem workedDecodes : Obligations.WorkedDecodes := by
  refine ⟨?_, ?_, ?_, ?_, ?_, ?_, ⟨?_, fun _ => rfl⟩, ?_, ?_, ?_, ?_, ?_, ?_, ?_, ?_, ?_, ?_, ?_, ?_⟩
  all_goals decide

/-- Settles O36: such a word is SYS's own, and the meaning of SYS is the fault. -/
theorem sysAlwaysFaults : Obligations.SysAlwaysFaults := by
  refine fun nnn hcls hret => ⟨decodeWord_encode (i := .sys nnn) (wellFormed_sys hcls hret), fun s => ?_⟩
  have hexec : exec (.sys nnn) s = .fault (.unknownOpcode (addr12 nnn) s.pc0) := rfl
  rw [hexec, addr12_eq_encode_sys]
  rfl

end Sys2Proof.Machine
end

section
/-! PROOFS. The shifts and the registers they do not touch (rule R57). -/

namespace Sys2Proof.Machine

/-- Writes of two different registers commute. -/
theorem State.setV_comm (s : State) {x k : Nibble} (hk : k ≠ x) (a b : Byte) :
    (s.setV x a).setV k b = (s.setV k b).setV x a := by
  have hne : x.toNat ≠ k.toNat := fun h => hk (BitVec.eq_of_toNat_eq h.symm)
  simp only [State.setV, State.mk.injEq, and_true]
  exact Vector.set_comm a b hne

/-- A shift's writes commute with a write of any other register. -/
theorem State.flagThenResult_setV (s : State) {x k : Nibble} (hx : k ≠ x) (hf : k ≠ flagReg) (b r : Byte) (c : Bool) :
    (s.setV k b).flagThenResult x r c = (s.flagThenResult x r c).setV k b := by
  rw [State.flagThenResult, State.flagThenResult, ← s.setV_comm hf, ← State.setV_comm _ hx]

theorem State.getV_setV_of_ne (s : State) {x k : Nibble} (hk : k ≠ x) (b : Byte) : (s.setV k b).getV x = s.getV x := by
  rw [State.getV_setV, if_neg hk.symm]

/-- Settles O6: a shift reads `v[x]` alone and writes `v[x]` and the flag register alone. -/
theorem shiftsIgnoreTheFieldY : Obligations.ShiftsIgnoreTheFieldY := by
  refine fun x y y' => ⟨decodeWord_encode (i := .shr x y) rfl, decodeWord_encode (i := .shl x y) rfl,
    fun s => ⟨rfl, rfl⟩, fun s k b hx hf => ⟨_, _, rfl, ?_, rfl, ?_⟩⟩
  · rw [← s.flagThenResult_setV hx hf]
    simp only [exec, execShr, s.getV_setV_of_ne hx]
  · rw [← s.flagThenResult_setV hx hf]
    simp only [exec, execShl, s.getV_setV_of_ne hx]

end Sys2Proof.Machine
end

section
/-! PROOFS. What each meaning has done when it answers a next state: the inversion of the meanings with a pre-check, and the fields every instruction may write. -/

namespace Sys2Proof.Machine

/-! ### Inversion of the meanings that can fault, and of wait-for-key -/

theorem finish_next_iff (r : Except Fault State) (t : State) : finish r = .next t ↔ r = .ok t := by
  cases r <;> simp [finish, raise]

/-- A return that answers popped the slot below `sp` (rule R90). -/
theorem execRet_next {s t : State} (h : execRet s = .next t) :
    ∃ hsp : 0 < s.sp.val, t = { s with pc := s.stack[s.sp.val - 1], sp := ⟨s.sp.val - 1, by omega⟩ } := by
  obtain hsp | hsp := Nat.eq_zero_or_pos s.sp.val
  · cases ((execRet_fault_iff s .stackUnderflow).2 ⟨rfl, hsp⟩).symm.trans h
  · exact ⟨hsp, (Host.Outcome.next.inj ((execRet_of_pos hsp).symm.trans h)).symm⟩

/-- A call that answers pushed the `pc` it saw (rule R92). -/
theorem execCall_next {nnn : Imm12} {s t : State} (h : execCall nnn s = .next t) :
    ∃ hsp : s.sp.val < 16, t =
      { s with stack := s.stack.set s.sp.val s.pc, sp := ⟨s.sp.val + 1, by omega⟩, pc := addr12 nnn } := by
  obtain hsp | hsp := Nat.lt_or_ge s.sp.val 16
  · exact ⟨hsp, (Host.Outcome.next.inj ((execCall_of_lt nnn hsp).symm.trans h)).symm⟩
  · cases ((execCall_fault_iff nnn s .stackOverflow).2 ⟨rfl, by omega⟩).symm.trans h

/-- A draw that answers wrote the drawn display and the collision flag (rule R131). -/
theorem execDrw_next {x y n : Nibble} {s t : State} (h : execDrw x y n s = .next t) :
    (n = 0x0#4 ∨ s.i.toNat + n.toNat - 1 ≤ 0xFFF) ∧
      t = (s.setDisp (s.drawn x y n).1).setV flagReg (flagByte (s.drawn x y n).2) := by
  by_cases hb : n = 0x0#4 ∨ s.i.toNat + n.toNat - 1 ≤ 0xFFF
  · exact ⟨hb, (Host.Outcome.next.inj ((execDrw_ok x y hb).symm.trans h)).symm⟩
  · have hfault := (exec_fault_iff_ownFault (.drw x y n) s _).2 (if_pos ((not_or.1 hb).imp_right Nat.not_le.1))
    cases hfault.symm.trans h

/-- A store that answers wrote its bytes at `i`, inside memory and above the font (rules R37, R38). -/
theorem finish_storeBytes_next {s t : State} {bs : List Byte} (hbs : 0 < bs.length)
    (h : finish (s.storeBytes bs) = .next t) :
    0x04F < s.i.toNat ∧ s.i.toNat + bs.length ≤ 0x1000 ∧ t = s.writeMem s.i.toNat bs := by
  obtain ⟨ht, hrange⟩ := s.storeBytes_ok_inv t bs ((finish_next_iff _ t).1 h)
  exact ⟨by omega, by omega, ht⟩

theorem execLdB_next {x : Nibble} {s t : State} (h : execLdB x s = .next t) :
    0x04F < s.i.toNat ∧ s.i.toNat + 3 ≤ 0x1000 ∧ t = s.writeMem s.i.toNat (bcdDigits (s.getV x)) :=
  finish_storeBytes_next (bs := bcdDigits (s.getV x)) (Nat.succ_pos 2) h

theorem execStoreRegs_next {x : Nibble} {s t : State} (h : execStoreRegs x s = .next t) :
    0x04F < s.i.toNat ∧ s.i.toNat + x.toNat ≤ 0xFFF ∧ t = s.writeMem s.i.toNat (s.regsUpTo x) := by
  have hlen := s.regsUpTo_length x
  obtain ⟨hfont, hbounds, ht⟩ := finish_storeBytes_next (by omega) h
  exact ⟨hfont, by omega, ht⟩

/-- A load of registers that answers read its block (rule R125). -/
theorem execLoadRegs_next {x : Nibble} {s t : State} (h : execLoadRegs x s = .next t) : t = s.loadRegsUpTo x := by
  rw [execLoadRegs] at h
  split at h
  · cases h
  · exact (Host.Outcome.next.inj h).symm

/-- Wait-for-key took the least pressed key, or entered the key wait at its own address (rule R143). -/
theorem execLdVxK_next {x : Nibble} {s t : State} (h : execLdVxK x s = .next t) :
    (∃ k, s.leastKey = some k ∧ t = s.setV x (nibbleToByte k)) ∨
    (s.leastKey = none ∧ t = (s.startWait x).setPc s.pc0) := by
  rw [execLdVxK] at h
  split at h
  case h_1 k hk => exact .inl ⟨k, hk, (Host.Outcome.next.inj h).symm⟩
  case h_2 hk => exact .inr ⟨hk, (Host.Outcome.next.inj h).symm⟩

/-! ### The fields an instruction may write -/

/-- `t` is `s` in every field but those the instruction may write; `0NNN` answers no state at all. -/
def WritesOnlyItsFields (i : Instr) (s t : State) : Prop :=
  match i with
  | .cls => t = { s with disp := t.disp }
  | .ret => t = { s with pc := t.pc, sp := t.sp }
  | .call _ => t = { s with pc := t.pc, sp := t.sp, stack := t.stack }
  | .jp _ | .jpV0 _ | .seImm _ _ | .sneImm _ _ | .seReg _ _ | .sneReg _ _ | .skp _ | .sknp _ => t = { s with pc := t.pc }
  | .ldImm _ _ | .addImm _ _ | .ldReg _ _ | .orReg _ _ | .andReg _ _ | .xorReg _ _ | .addReg _ _ | .subReg _ _
  | .shr _ _ | .subnReg _ _ | .shl _ _ | .ldVxDt _ | .loadRegs _ => t = { s with v := t.v }
  | .rnd _ _ => t = { s with v := t.v, randIdx := t.randIdx }
  | .ldI _ | .addI _ | .ldF _ => t = { s with i := t.i }
  | .drw _ _ _ => t = { s with v := t.v, disp := t.disp }
  | .ldVxK _ => t = { s with v := t.v, pc := t.pc, wait := t.wait, waitX := t.waitX }
  | .ldDtVx _ => t = { s with dt := t.dt }
  | .ldStVx _ => t = { s with st := t.st }
  | .ldB _ | .storeRegs _ => t = { s with mem := t.mem }
  | .sys _ => False

theorem State.skipIf_frame (s : State) (c : Bool) : s.skipIf c = { s with pc := (s.skipIf c).pc } := by
  cases c <;> rfl

/-- The frame of every instruction (10_state.md). -/
theorem exec_writesOnlyItsFields {i : Instr} {s t : State} (h : exec i s = .next t) : WritesOnlyItsFields i s t := by
  cases i
  case ret => obtain ⟨-, rfl⟩ := execRet_next h; rfl
  case call nnn => obtain ⟨-, rfl⟩ := execCall_next h; rfl
  case drw x y n => obtain ⟨-, rfl⟩ := execDrw_next h; rfl
  case ldB x => obtain ⟨-, -, rfl⟩ := execLdB_next h; rfl
  case storeRegs x => obtain ⟨-, -, rfl⟩ := execStoreRegs_next h; rfl
  case loadRegs x => obtain rfl := execLoadRegs_next h; rfl
  case ldVxK x => obtain ⟨k, -, rfl⟩ | ⟨-, rfl⟩ := execLdVxK_next h <;> rfl
  case sys nnn => cases h
  case seImm | sneImm | seReg | sneReg | skp | sknp =>
    cases h
    exact State.skipIf_frame _ _
  all_goals cases h; rfl

/-- Settles O26: read off the fields each instruction may write. -/
theorem indexAndStackFrame : Obligations.IndexAndStackFrame := by
  intro i s t h
  have hframe := exec_writesOnlyItsFields h
  constructor
  · cases i
    case ldI nnn => exact .inr (.inl ⟨nnn, rfl⟩)
    case addI x => exact .inr (.inr ⟨x, .inl rfl⟩)
    case ldF x => exact .inr (.inr ⟨x, .inr rfl⟩)
    case sys => exact hframe.elim
    all_goals exact .inl (congrArg State.i hframe :)
  · cases i
    case call nnn => exact .inr (.inl ⟨nnn, rfl⟩)
    case ret => exact .inr (.inr rfl)
    case sys => exact hframe.elim
    all_goals exact .inl ⟨(congrArg State.sp hframe :), (congrArg State.stack hframe :)⟩

/-- The display is written by clear-screen and draw only (rule R20). -/
theorem exec_disp_cases {i : Instr} {s t : State} (h : exec i s = .next t) :
    t.disp = s.disp ∨ i = .cls ∨ ∃ x y n, i = .drw x y n := by
  have hframe := exec_writesOnlyItsFields h
  cases i
  case cls => exact .inr (.inl rfl)
  case drw x y n => exact .inr (.inr ⟨x, y, n, rfl⟩)
  case sys => exact hframe.elim
  all_goals exact .inl (congrArg State.disp hframe :)

/-- The key wait is entered by wait-for-key only (rule R17). -/
theorem exec_wait_cases {i : Instr} {s t : State} (h : exec i s = .next t) :
    (t.wait = s.wait ∧ t.waitX = s.waitX) ∨ ∃ x, i = .ldVxK x := by
  have hframe := exec_writesOnlyItsFields h
  cases i
  case ldVxK x => exact .inr ⟨x, rfl⟩
  case sys => exact hframe.elim
  all_goals exact .inl ⟨(congrArg State.wait hframe :), (congrArg State.waitX hframe :)⟩

/-- The keypad is written by no instruction (rule R20). -/
theorem exec_keys {i : Instr} {s t : State} (h : exec i s = .next t) : t.keys = s.keys := by
  have hframe := exec_writesOnlyItsFields h
  cases i
  case sys => exact hframe.elim
  all_goals exact (congrArg State.keys hframe :)

/-- FONT_TABLE is written by no instruction (rule R32). -/
theorem exec_font {i : Instr} {s t : State} (h : exec i s = .next t) : t.font = s.font := by
  have hframe := exec_writesOnlyItsFields h
  cases i
  case sys => exact hframe.elim
  all_goals exact (congrArg State.font hframe :)

/-- A random byte is taken by random only (rule R112). -/
theorem exec_randIdx_cases {i : Instr} {s t : State} (h : exec i s = .next t) :
    t.randIdx = s.randIdx ∨ ∃ x nn, i = .rnd x nn := by
  have hframe := exec_writesOnlyItsFields h
  cases i
  case rnd x nn => exact .inr ⟨x, nn, rfl⟩
  case sys => exact hframe.elim
  all_goals exact .inl (congrArg State.randIdx hframe :)

/-- Settles O27: read off the fields each instruction may write. -/
theorem displayAndKeypadFrame : Obligations.DisplayAndKeypadFrame := fun _ _ _ h =>
  ⟨exec_disp_cases h, exec_wait_cases h, exec_keys h, exec_randIdx_cases h⟩

/-! ### Timers (rules R15, R16) -/

theorem exec_dt_cases {i : Instr} {s t : State} (h : exec i s = .next t) :
    t.dt = s.dt ∨ ∃ x, i = .ldDtVx x ∧ t.dt = s.getV x := by
  have hframe := exec_writesOnlyItsFields h
  cases i
  case ldDtVx x => cases h; exact .inr ⟨x, rfl, rfl⟩
  case sys => exact hframe.elim
  all_goals exact .inl (congrArg State.dt hframe :)

theorem exec_st_cases {i : Instr} {s t : State} (h : exec i s = .next t) :
    t.st = s.st ∨ ∃ x, i = .ldStVx x ∧ t.st = s.getV x := by
  have hframe := exec_writesOnlyItsFields h
  cases i
  case ldStVx x => cases h; exact .inr ⟨x, rfl, rfl⟩
  case sys => exact hframe.elim
  all_goals exact .inl (congrArg State.st hframe :)

end Sys2Proof.Machine
end

section
/-! PROOFS. The registers and the bytes of memory an instruction may change (rules R13, R36, R39), and what no step changes: the font region and the keypad. -/

namespace Sys2Proof.Machine

open Safety

/-! ### General registers (rules R10, R13) -/

/-- A register no rule of the instruction names reads as before. -/
theorem exec_getV_of_not_writesReg {i : Instr} {s t : State} (h : exec i s = .next t) {k : Nibble}
    (hk : ¬ WritesReg i k) : t.getV k = s.getV k := by
  have hframe := exec_writesOnlyItsFields h
  cases i
  case ldImm | addImm | ldReg | orReg | andReg | xorReg | rnd | ldVxDt =>
    cases h
    exact (State.getV_setV _ _ _ _).trans (if_neg hk)
  case addReg | subReg | subnReg =>
    cases h
    rw [State.getV_resultThenFlag, if_neg (mt .inr hk), if_neg (mt .inl hk)]
  case shr | shl =>
    cases h
    rw [State.getV_flagThenResult, if_neg (mt .inl hk), if_neg (mt .inr hk)]
  case drw x y n =>
    obtain ⟨-, rfl⟩ := execDrw_next h
    exact (State.getV_setV _ _ _ _).trans (if_neg hk)
  case loadRegs x =>
    obtain rfl := execLoadRegs_next h
    exact (s.getV_loadRegsUpTo x k).trans (if_neg hk)
  case ldVxK x =>
    obtain ⟨key, -, rfl⟩ | ⟨-, rfl⟩ := execLdVxK_next h
    · exact (s.getV_setV x k _).trans (if_neg hk)
    · rfl
  case sys => exact hframe.elim
  all_goals exact State.getV_congr _ _ (congrArg State.v hframe :) k

/-- Settles O24: one case for each of the few ways registers are written. -/
theorem registerFrame : Obligations.RegisterFrame := fun _ _ _ h _ hk => exec_getV_of_not_writesReg h hk

/-! ### The flag register (rules R13, R100) -/

theorem State.resultThenFlag_getV_flag (s : State) (x : Nibble) (r : Byte) (c : Bool) :
    (s.resultThenFlag x r c).getV 0xF#4 = flagByte c := by
  rw [State.getV_resultThenFlag, if_pos rfl]

theorem State.flagThenResult_getV_flag (s : State) {x : Nibble} (hx : x ≠ 0xF#4) (r : Byte) (c : Bool) :
    (s.flagThenResult x r c).getV 0xF#4 = flagByte c := by
  rw [State.getV_flagThenResult, if_neg hx.symm, if_pos rfl]

/-- The six leave a flag byte, the shifts when their destination is another register (rules R13, R100). -/
theorem exec_flag_eq_flagByte {i : Instr} {s t : State} (h : exec i s = .next t) {x y n : Nibble}
    (hi : i = .addReg x y ∨ i = .subReg x y ∨ i = .subnReg x y ∨ i = .drw x y n ∨
      (x ≠ 0xF#4 ∧ (i = .shr x y ∨ i = .shl x y))) : ∃ c, t.getV 0xF#4 = flagByte c := by
  obtain rfl | rfl | rfl | rfl | ⟨hx, rfl | rfl⟩ := hi
  case inr.inr.inr.inl =>
    obtain ⟨-, rfl⟩ := execDrw_next h
    exact ⟨_, State.getV_setV_self _ _ _⟩
  all_goals cases h
  case inr.inr.inr.inr.inl | inr.inr.inr.inr.inr => exact ⟨_, s.flagThenResult_getV_flag hx _ _⟩
  all_goals exact ⟨_, s.resultThenFlag_getV_flag x _ _⟩

/-- An instruction that is none of the six and does not name `v[0xF]` as its destination does not write it. -/
theorem not_writesReg_flag {i : Instr}
    (hflag : ∀ x y n, i ≠ .addReg x y ∧ i ≠ .subReg x y ∧ i ≠ .subnReg x y ∧ i ≠ .shr x y ∧ i ≠ .shl x y ∧ i ≠ .drw x y n)
    (hdest : ∀ y nn, i ≠ .ldImm 0xF#4 nn ∧ i ≠ .addImm 0xF#4 nn ∧ i ≠ .rnd 0xF#4 nn ∧ i ≠ .ldReg 0xF#4 y ∧
      i ≠ .orReg 0xF#4 y ∧ i ≠ .andReg 0xF#4 y ∧ i ≠ .xorReg 0xF#4 y ∧ i ≠ .ldVxDt 0xF#4 ∧ i ≠ .ldVxK 0xF#4 ∧
      i ≠ .loadRegs 0xF#4) : ¬ WritesReg i 0xF#4 := by
  intro hw
  cases i
  case addReg | subReg | subnReg | shr | shl | drw => simp at hflag
  case ldImm | addImm | rnd | ldReg | orReg | andReg | xorReg | ldVxDt | ldVxK =>
    obtain rfl := hw
    simp at hdest
  case loadRegs x =>
    have hle : 0xF#4 ≤ x := hw
    obtain rfl : x = 0xF#4 := by bv_omega
    simp at hdest
  all_goals exact hw

/-- Settles O25: a flag byte is 0x00 or 0x01, and a register that is not written reads as before. -/
theorem flagRegisterFrame : Obligations.FlagRegisterFrame := by
  refine fun i s t h => ⟨fun x y n hi => ?_, fun hflag hdest => ?_⟩
  · obtain ⟨c, hc⟩ := exec_flag_eq_flagByte h hi
    exact hc ▸ (flagByte_eq_or c).symm
  · exact exec_getV_of_not_writesReg h (not_writesReg_flag hflag hdest)

/-! ### Memory (rules R36, R38, R39) -/

/-- The instruction stores a block of `len` bytes at `i` (rules R123, R124). -/
def StoresBlock (i : Instr) (len : Nat) : Prop :=
  (∃ x, i = .ldB x ∧ len = 3) ∨ (∃ x, i = .storeRegs x ∧ len = x.toNat + 1)

/-- An instruction leaves memory, or stores one block inside memory and above the font. -/
theorem exec_mem_cases {i : Instr} {s t : State} (h : exec i s = .next t) :
    t.mem = s.mem ∨ ∃ bs, StoresBlock i bs.length ∧ 0x04F < s.i.toNat ∧ s.i.toNat + bs.length ≤ 0x1000 ∧
      t.mem = s.mem.writeBytes s.font s.i.toNat bs := by
  have hframe := exec_writesOnlyItsFields h
  cases i
  case ldB x =>
    obtain ⟨hfont, hbounds, rfl⟩ := execLdB_next h
    exact .inr ⟨bcdDigits (s.getV x), .inl ⟨x, rfl, rfl⟩, hfont, hbounds, rfl⟩
  case storeRegs x =>
    obtain ⟨hfont, hbounds, rfl⟩ := execStoreRegs_next h
    exact .inr ⟨_, .inr ⟨x, rfl, s.regsUpTo_length x⟩, hfont, by rw [s.regsUpTo_length]; omega, rfl⟩
  case sys => exact hframe.elim
  all_goals exact .inl (congrArg State.mem hframe :)

/-- A byte reads as before, or lies in the block the instruction stored, which is above the font. -/
theorem exec_read_cases {i : Instr} {s t : State} (h : exec i s = .next t) (a : Nat) :
    t.read a = s.read a ∨
      ∃ len, StoresBlock i len ∧ 0x04F < s.i.toNat ∧ s.i.toNat ≤ a ∧ a < s.i.toNat + len := by
  have hfont := exec_font h
  obtain hmem | ⟨bs, hstores, habove, -, hmem⟩ := exec_mem_cases h
  · exact .inl (State.read_congr t s hmem hfont a)
  · have hread : t.read a = (s.writeMem s.i.toNat bs).read a := t.read_congr (s.writeMem _ bs) hmem hfont a
    by_cases hin : s.i.toNat ≤ a ∧ a < s.i.toNat + bs.length
    · exact .inr ⟨bs.length, hstores, habove, hin⟩
    · exact .inl (hread.trans (s.read_writeMem_outside (by omega)))

/-- Settles O28: the block an instruction stores has three bytes, or one for each register up to `x`. -/
theorem memoryFrame : Obligations.MemoryFrame := by
  refine fun i s t h => ⟨exec_font h, fun a => ?_⟩
  obtain hread | ⟨len, ⟨x, hi, rfl⟩ | ⟨x, hi, rfl⟩, -, hlo, hhi⟩ := exec_read_cases h a
  · exact .inl hread
  · exact .inr (.inl ⟨x, hi, hlo, by omega⟩)
  · exact .inr (.inr ⟨x, hi, hlo, by omega⟩)

/-! ### What no step changes (rules R20, R38) -/

/-- A poll of a key wait leaves every field but `v`, `wait` and `pc` (rule R75). -/
theorem pollKeyWait_frame {s t : State} (h : pollKeyWait s = .next t) :
    t = { s with v := t.v, wait := t.wait, pc := t.pc } := by
  obtain ⟨-, hpoll⟩ | ⟨k, -, hpoll⟩ := pollKeyWait_cases s <;> cases hpoll.symm.trans h <;> rfl

/-- Settles O21: a store's font pre-check keeps its block above the font region. -/
theorem fontRegionIsNeverWritten : Obligations.FontRegionIsNeverWritten := by
  intro s t h
  obtain ⟨-, hpoll⟩ | ⟨-, -, i, -, hexec⟩ := step_next_cases s t h
  · have hframe := pollKeyWait_frame hpoll
    have hfont : t.font = s.font := (congrArg State.font hframe :)
    exact ⟨hfont, fun a _ => State.read_congr t s (congrArg State.mem hframe :) hfont a⟩
  · refine ⟨(exec_font hexec :), fun a ha => ?_⟩
    obtain hread | ⟨len, -, habove, hlo, -⟩ := exec_read_cases hexec a
    · exact hread
    · omega

/-- Settles O23: of the instructions only two write a timer, and the word at `pc` is the one that was decoded. -/
theorem stepLeavesKeysAndTimers : Obligations.StepLeavesKeysAndTimers := by
  intro s t h
  obtain ⟨-, hpoll⟩ | ⟨hw, -, i, hd, hexec⟩ := step_next_cases s t h
  · have hframe := pollKeyWait_frame hpoll
    exact ⟨(congrArg State.keys hframe :), .inl (congrArg State.dt hframe :), .inl (congrArg State.st hframe :)⟩
  · have hword := (encode_of_decodeWord hd).symm
    refine ⟨(exec_keys hexec :), (exec_dt_cases hexec).imp_right ?_, (exec_st_cases hexec).imp_right ?_⟩
    · rintro ⟨x, rfl, hdt⟩
      exact ⟨hw, x, hword, hdt⟩
    · rintro ⟨x, rfl, hst⟩
      exact ⟨hw, x, hword, hst⟩

end Sys2Proof.Machine
end

section
/-! PROOFS. The invariant of the CORE: it holds at reset and every step keeps it, part by part. -/

namespace Sys2Proof.Machine

open Safety

/-! ### The invariant after reset -/

theorem fontIntact_resetWith (table : FontTable) : FontIntact (State.resetWith table) := fun _ ha =>
  some_resetByte_of_lt table ha

theorem inv_resetWith (table : FontTable) : Inv (State.resetWith table) where
  memWf := Memory.wf_reset table
  font := fontIntact_resetWith table
  pc := show (0x0200#16 : Word).toNat ≤ 0x10FE by decide
  stack := fun _ hk => absurd hk (Nat.not_lt_zero _)
  keyWait := nofun

/-- Settles O18: the reset state has an empty stack and no key wait, and its memory lists nothing. -/
theorem resetHasTheInvariant : Obligations.ResetHasTheInvariant := fun table =>
  ⟨inv_resetWith table, inv_resetWith table, fun _ => rfl⟩

/-! ### The parts of the invariant under an instruction -/

theorem exec_keeps_memWf {i : Instr} {s t : State} (h : exec i s = .next t) (hm : s.mem.wf s.font = true) :
    t.mem.wf t.font = true := by
  rw [exec_font h]
  obtain hmem | ⟨bs, -, -, hbounds, hmem⟩ := exec_mem_cases h
  · exact hmem ▸ hm
  · exact hmem ▸ Memory.wf_writeBytes bs hm hbounds

/-- No byte of the font region changes, so it still reads as FONT_TABLE (rule R38). -/
theorem fontIntact_of_step {s t : State} (h : step s = .next t) (hs : FontIntact s) : FontIntact t := by
  obtain ⟨hfont, hread⟩ := fontRegionIsNeverWritten s t h
  intro a ha
  rw [hread a ha, hfont]
  exact hs a ha

/-- An address taken from an immediate is below 0x1000 (rule R52). -/
theorem toNat_addr12_lt (nnn : Imm12) : (addr12 nnn).toNat < 0x1000 := by
  unfold addr12
  bv_omega

theorem State.skipIf_pc_bounded (s : State) (c : Bool) (hpc : s.pc.toNat ≤ 0x1000) :
    (s.skipIf c).pc.toNat ≤ 0x10FE := by
  rw [State.skipIf_pc]
  split <;> bv_omega

/-- Where an instruction leaves `pc`: a return is bounded by its slot, jump-plus-offset by 0xFFF + 0xFF, and every other
instruction by the `pc` it sees and one skip (rules R12, R90 to R97). -/
theorem exec_pc_bounded {i : Instr} {s t : State} (h : exec i s = .next t) (hlo : 2 ≤ s.pc.toNat)
    (hhi : s.pc.toNat ≤ 0x1000) (hstack : StackBounded s) : PcBounded t := by
  have hframe := exec_writesOnlyItsFields h
  unfold PcBounded
  cases i
  case ret =>
    obtain ⟨hsp, rfl⟩ := execRet_next h
    have hslot := hstack ⟨s.sp.val - 1, by omega⟩ (Nat.sub_lt hsp Nat.one_pos)
    exact hslot.trans (by decide)
  case jp nnn =>
    cases h
    exact (toNat_addr12_lt nnn).le.trans (by decide)
  case call nnn =>
    obtain ⟨-, rfl⟩ := execCall_next h
    exact (toNat_addr12_lt nnn).le.trans (by decide)
  case jpV0 nnn =>
    cases h
    have hsum := toNat_addr12_add_byteToWord nnn (s.getV 0x0#4)
    have hnnn := nnn.isLt
    have hv := (s.getV 0x0#4).isLt
    exact hsum.trans_le (by omega)
  case seImm | sneImm | seReg | sneReg | skp | sknp =>
    cases h
    exact s.skipIf_pc_bounded _ hhi
  case ldVxK x =>
    obtain ⟨k, -, rfl⟩ | ⟨-, rfl⟩ := execLdVxK_next h
    · exact hhi.trans (by decide)
    · show (s.pc - 2#16).toNat ≤ 0x10FE
      bv_omega
  case sys => exact hframe.elim
  all_goals exact (congrArg (fun u : State => u.pc.toNat) hframe :).trans_le (hhi.trans (by decide))

/-- Only a call adds a live slot, with the `pc` it sees (rule R92). -/
theorem exec_keeps_stackBounded {i : Instr} {s t : State} (h : exec i s = .next t) (hpc : s.pc.toNat ≤ 0x1000)
    (hstack : StackBounded s) : StackBounded t := by
  intro k hk
  obtain ⟨-, ⟨hsp, hslots⟩ | ⟨nnn, rfl⟩ | rfl⟩ := indexAndStackFrame i s t h
  · rw [hsp] at hk
    simp only [hslots]
    exact hstack k hk
  · obtain ⟨hsp, rfl⟩ := execCall_next h
    have hslot : (s.stack.set s.sp.val s.pc)[k] = if s.sp.val = k.val then s.pc else s.stack[k] :=
      Vector.getElem_set _ _
    have hk : k.val < s.sp.val + 1 := hk
    simp only [hslot]
    split
    · exact hpc
    · exact hstack k (by omega)
  · obtain ⟨hsp, rfl⟩ := execRet_next h
    have hk : k.val < s.sp.val - 1 := hk
    exact hstack k (by omega)

/-- A key wait that begins stands at the word that was decoded (rules R17, R143). -/
theorem exec_startsWait {i : Instr} {s t : State} (hd : decodeWord (s.word s.pc.toNat) = .ok i)
    (hw : s.wait = false) (hwt : t.wait = true) (h : exec i s.advance = .next t) :
    ∃ x, i = .ldVxK x ∧ s.leastKey = none ∧ t = s.startWait x := by
  obtain ⟨hwait, -⟩ | ⟨x, rfl⟩ := exec_wait_cases h
  · cases hwt.symm.trans (hwait.trans hw)
  · obtain ⟨k, -, rfl⟩ | ⟨hkey, rfl⟩ := execLdVxK_next h
    · cases hwt.symm.trans hw
    · refine ⟨x, rfl, hkey, ?_⟩
      rw [s.advance_pc0]
      rfl

/-! ### The invariant under a step -/

/-- The instruction of a fetching step keeps every part: it sees `pc` two above an address that can be fetched. -/
theorem exec_keeps_inv {i : Instr} {s t : State} (hs : Inv s) (hstep : step s = .next t) (hw : s.wait = false)
    (hpc : s.pc.toNat ≤ 0xFFE) (hd : decodeWord (s.word s.pc.toNat) = .ok i) (h : exec i s.advance = .next t) :
    Inv t := by
  have hadvance : s.advance.pc.toNat = s.pc.toNat + 2 := by rw [State.advance_pc]; bv_omega
  have hhi : s.advance.pc.toNat ≤ 0x1000 := by omega
  refine ⟨exec_keeps_memWf h hs.memWf, fontIntact_of_step hstep hs.font, exec_pc_bounded h (by omega) hhi hs.stack,
    exec_keeps_stackBounded h hhi hs.stack, fun hwt => ?_⟩
  obtain ⟨x, rfl, -, rfl⟩ := exec_startsWait hd hw hwt h
  exact ⟨hpc, (encode_of_decodeWord hd).symm⟩

/-- The poll of a key wait leaves the state, or ends the wait and advances past its instruction. -/
theorem pollKeyWait_keeps_inv {s t : State} (hs : Inv s) (hw : s.wait = true) (h : pollKeyWait s = .next t) :
    Inv t := by
  obtain ⟨-, hpoll⟩ | ⟨k, -, hpoll⟩ := pollKeyWait_cases s
  · cases hpoll.symm.trans h
    exact hs
  · cases hpoll.symm.trans h
    have hpc := (hs.keyWait hw).1
    refine ⟨hs.memWf, hs.font, ?_, hs.stack, nofun⟩
    show (s.pc + 2#16).toNat ≤ 0x10FE
    bv_omega

/-- Settles O19: a step polls a key wait or runs the instruction at `pc`, and either keeps every part. -/
theorem stepKeepsTheInvariant : Obligations.StepKeepsTheInvariant := by
  intro s t hs h
  obtain ⟨hw, hpoll⟩ | ⟨hw, hpc, i, hd, hexec⟩ := step_next_cases s t h
  · exact pollKeyWait_keeps_inv hs hw hpoll
  · exact exec_keeps_inv hs h hw hpc hd hexec

end Sys2Proof.Machine
end

section
/-! PROOFS. Every step ends in a next state or in the fault expected of it, and that fault does not depend on timers, keys or random bytes (rules R81, R158, R159). -/

namespace Sys2Proof.Machine

open Safety

/-! ### No refusal (rule R81) -/

theorem finish_ne_refused (r : Except Fault State) (m : Refusal) : finish r ≠ .refused m := by
  cases r <;> simp [finish, raise]

/-- Every instruction has a meaning. -/
theorem exec_ne_refused (i : Instr) (s : State) (m : Refusal) : exec i s ≠ .refused m := by
  cases i
  case ret => exact finish_ne_refused _ m
  case ldB | storeRegs => exact finish_ne_refused _ m
  case call nnn =>
    rw [exec, execCall]
    cases s.push s.pc <;> simp [raise]
  case drw x y n =>
    rw [exec, execDrw]
    cases s.checkAccess n.toNat <;> simp [raise]
  case loadRegs x =>
    rw [exec, execLoadRegs]
    cases s.checkAccess (x.toNat + 1) <;> simp [raise]
  case ldVxK x =>
    rw [exec, execLdVxK]
    cases s.leastKey <;> simp
  all_goals nofun

/-- A meaning answers a next state exactly when its own pre-check passes. -/
theorem exec_next_of_ownFault_none {i : Instr} {s : State} (h : ownFault i s = none) : ∃ t, exec i s = .next t := by
  cases hexec : exec i s with
  | next t => exact ⟨t, rfl⟩
  | fault f => cases ((exec_fault_iff_ownFault i s f).1 hexec).symm.trans h
  | refused m => exact absurd hexec (exec_ne_refused i s m)

/-! ### The fault of a step (rule R158) -/

theorem step_fault_of_expectedFault {s : State} {f : Fault} (h : expectedFault s = some f) : step s = .fault f := by
  unfold expectedFault at h
  split_ifs at h with hw hpc
  · cases h
    exact step_of_fetch_error s (by simpa using hw) hpc
  · have hw : s.wait = false := by simpa using hw
    have hpc := Nat.not_lt.1 hpc
    split at h
    case h_1 e hd =>
      cases h
      exact step_of_decode_error s hw hpc e hd
    case h_2 i hd =>
      rw [step_of_decode_ok s hw hpc i hd]
      exact (exec_fault_iff_ownFault i s.advance f).2 h

theorem step_next_of_mayStep {s : State} (h : MayStep s) : ∃ t, step s = .next t := by
  unfold MayStep expectedFault at h
  split_ifs at h with hw hpc
  · rw [step_of_wait s hw]
    obtain ⟨-, hpoll⟩ | ⟨k, -, hpoll⟩ := pollKeyWait_cases s
    · exact ⟨_, hpoll⟩
    · exact ⟨_, hpoll⟩
  · have hw : s.wait = false := by simpa using hw
    split at h
    case h_1 => cases h
    case h_2 i hd =>
      rw [step_of_decode_ok s hw (Nat.not_lt.1 hpc) i hd]
      exact exec_next_of_ownFault_none h

/-- A step has one of two outcomes, and `expectedFault` says which. -/
theorem step_cases (s : State) :
    (∃ t, step s = .next t ∧ MayStep s) ∨ (∃ f, step s = .fault f ∧ expectedFault s = some f) := by
  cases h : expectedFault s with
  | none =>
    obtain ⟨t, ht⟩ := step_next_of_mayStep h
    exact .inl ⟨t, ht, h⟩
  | some f => exact .inr ⟨f, step_fault_of_expectedFault h, rfl⟩

/-- Settles O12: the result of a step is read off its outcome. -/
theorem stepAnswersOkOrOneFault : Obligations.StepAnswersOkOrOneFault := by
  intro s
  obtain ⟨t, ht, -⟩ | ⟨f, hf, -⟩ := step_cases s
  · exact .inl ⟨t, ht, by simp [stepResult, ht]⟩
  · exact .inr ⟨f, hf, by simp [stepResult, hf]⟩

theorem step_fault_iff_expectedFault (s : State) (f : Fault) : step s = .fault f ↔ expectedFault s = some f := by
  refine ⟨fun h => ?_, step_fault_of_expectedFault⟩
  obtain ⟨t, ht, -⟩ | ⟨g, hg, hexp⟩ := step_cases s
  · cases ht.symm.trans h
  · cases hg.symm.trans h
    exact hexp

theorem step_next_iff_mayStep (s : State) : (∃ t, step s = .next t) ↔ MayStep s := by
  refine ⟨fun ⟨t, ht⟩ => ?_, step_next_of_mayStep⟩
  obtain ⟨-, -, hmay⟩ | ⟨f, hf, -⟩ := step_cases s
  · exact hmay
  · cases hf.symm.trans ht

/-- Settles O13: the expected fault decides between the two outcomes. -/
theorem faultPriority : Obligations.FaultPriority := fun s =>
  ⟨step_fault_iff_expectedFault s, step_next_iff_mayStep s⟩

/-! ### What the fault of a step depends on (rule R159) -/

/-- An instruction's own pre-check looks at `i`, `sp` and `pc` alone. -/
theorem ownFault_congr (i : Instr) {s t : State} (hi : t.i = s.i) (hsp : t.sp = s.sp) (hpc : t.pc = s.pc) :
    ownFault i t = ownFault i s := by
  cases i
  all_goals simp only [ownFault, boundsFault, hi, hsp, hpc]

/-- The fault of a step depends on the key wait, `pc`, `i`, `sp` and memory alone. -/
theorem expectedFault_congr {s t : State} (hw : t.wait = s.wait) (hpc : t.pc = s.pc) (hi : t.i = s.i)
    (hsp : t.sp = s.sp) (hread : ∀ a, t.read a = s.read a) : expectedFault t = expectedFault s := by
  have hown : ∀ i, ownFault i t.advance = ownFault i s.advance := fun i =>
    ownFault_congr i hi hsp (congrArg (· + 2#16) hpc)
  simp only [expectedFault, hw, hpc, State.word_congr t s hread, hown]

/-- Settles O14: none of the four states differs in what the fault depends on. -/
theorem faultIsReturnedAgain : Obligations.FaultIsReturnedAgain := by
  intro s f h
  have hagain : ∀ t : State, expectedFault t = expectedFault s → step t = .fault f := fun t ht =>
    step_fault_of_expectedFault (ht.trans ((step_fault_iff_expectedFault s f).1 h))
  refine ⟨(stepState_of_fault h).symm ▸ h, hagain _ ?tick, fun k p => hagain _ ?key, fun n => hagain _ ?rand⟩
  case tick | key | rand => exact expectedFault_congr rfl rfl rfl rfl fun _ => rfl

end Sys2Proof.Machine
end

section
/-! PROOFS. The host events (rules R44, R70, R82, R167, R170): what each has done when it has a transition, the invariant of a session, and the key wait along any events. -/

namespace Sys2Proof.Machine

open Safety

/-! ### Inversion of each event -/

theorem inPhase_next {p : Phase} {o : StepOutcome} {d : Session} (h : inPhase p o = .next d) :
    o = .next d.core ∧ d.phase = p := by
  cases o with
  | next t => cases h; exact ⟨rfl, rfl⟩
  | fault f => cases h
  | refused r => cases h

theorem loadImage_of_le {bytes : List Byte} (h : bytes.length ≤ maxImage) (s : State) :
    loadImage bytes s = .next (s.writeMem 0x200 bytes) :=
  if_pos h

theorem loadImage_of_lt {bytes : List Byte} (h : maxImage < bytes.length) (s : State) :
    loadImage bytes s = .refused (.imageTooLong bytes.length) :=
  if_neg (Nat.not_le.2 h)

/-- A load has a transition only before any other load and step, and only for an image that fits (rules R44, R175). -/
theorem Session.apply_loadImage_next {c d : Session} {bytes : List Byte} (h : c.apply (.loadImage bytes) = .next d) :
    c.phase = .fresh ∧ bytes.length ≤ maxImage ∧ d = { core := c.core.writeMem 0x200 bytes, phase := .loaded } := by
  obtain ⟨s, phase⟩ := c
  cases phase with
  | fresh =>
    have h : inPhase .loaded (loadImage bytes s) = .next d := h
    obtain hlen | hlen := Nat.lt_or_ge maxImage bytes.length
    · rw [loadImage_of_lt hlen] at h
      cases h
    · rw [loadImage_of_le hlen] at h
      cases h
      exact ⟨rfl, hlen, rfl⟩
  | loaded => cases h
  | running => cases h

theorem Session.apply_step_next {c d : Session} (h : c.apply .step = .next d) :
    step c.core = .next d.core ∧ d.phase = .running :=
  inPhase_next h

theorem Session.apply_setKey_next {c d : Session} {index : Nat} {p : Bool} (h : c.apply (.setKey index p) = .next d) :
    d = { core := c.core.setKey (BitVec.ofNat 4 index) p, phase := c.phase } := by
  have h : inPhase c.phase (setKeyEvent index p c.core) = .next d := h
  obtain hindex | hindex := Nat.lt_or_ge index 16
  · rw [setKeyEvent_of_lt hindex] at h
    cases h
    rfl
  · rw [setKeyEvent_of_le hindex] at h
    cases h

/-! ### Loading and resetting (rules R44, R170) -/

/-- Settles O58: a fitting image is one block written at 0x200, and every other load is refused. -/
theorem loadImageCopiesTheImage : Obligations.LoadImageCopiesTheImage := by
  refine fun bytes c => ⟨fun hfresh hlen => ?_, fun hlong d h => ?_, fun hphase d h => ?_, fun hphase d h => ?_⟩
  · refine ⟨{ core := c.core.writeMem 0x200 bytes, phase := .loaded }, ?_, rfl, rfl, fun k hk => ?_, fun a ha => ?_⟩
    · simp only [Session.apply, hfresh, loadImage_of_le hlen, inPhase]
    · rw [State.read_writeMem_inside _ _ hk, List.getElem?_eq_getElem hk]
    · exact State.read_writeMem_outside _ ha
  · obtain ⟨-, hlen, -⟩ := Session.apply_loadImage_next h
    exact absurd hlen (Nat.not_le.2 hlong)
  · cases hphase.symm.trans (Session.apply_loadImage_next h).1
  · cases hphase.symm.trans (Session.apply_loadImage_next h).1

/-- Settles O59: the reset event is defined as this state. -/
theorem resetEventResetsEverything : Obligations.ResetEventResetsEverything := fun _ => ⟨_, rfl, rfl, rfl⟩

/-! ### The invariant of a session (rule R82) -/

theorem inv_resetEvent (s : State) : Inv (resetEvent s) :=
  have h := inv_resetWith s.font
  ⟨h.memWf, h.font, h.pc, h.stack, h.keyWait⟩

theorem inv_tickTimers {s : State} (h : Inv s) : Inv (tickTimers s) :=
  ⟨h.memWf, h.font, h.pc, h.stack, h.keyWait⟩

theorem inv_setKey {s : State} (h : Inv s) (k : Nibble) (p : Bool) : Inv (s.setKey k p) :=
  ⟨h.memWf, h.font, h.pc, h.stack, h.keyWait⟩

/-- An image that fits lies above the font region, and no key wait has begun that could stand under it. -/
theorem inv_writeImage {s : State} (h : Inv s) (hw : s.wait = false) {bytes : List Byte}
    (hlen : bytes.length ≤ maxImage) : Inv (s.writeMem 0x200 bytes) where
  memWf := Memory.wf_writeBytes bytes h.memWf (by unfold maxImage at hlen; omega)
  font := fun a ha => by
    rw [State.read_writeMem_outside s (by omega)]
    exact h.font a ha
  pc := h.pc
  stack := h.stack
  keyWait := fun hwt => by cases hwt.symm.trans hw

/-- Settles O20: a load comes before any key wait, and a step is the only event that ends the phase without one. -/
theorem eventsKeepTheInvariant : Obligations.EventsKeepTheInvariant := by
  intro c d e hc h
  obtain ⟨hcore, hnoWait⟩ := hc
  cases e with
  | reset =>
    cases h
    exact ⟨inv_resetEvent c.core, fun _ => rfl⟩
  | loadImage bytes =>
    obtain ⟨hfresh, hlen, rfl⟩ := Session.apply_loadImage_next h
    have hw : c.core.wait = false := hnoWait (by simp [hfresh])
    exact ⟨inv_writeImage hcore hw hlen, fun _ => hw⟩
  | step =>
    obtain ⟨hstep, hphase⟩ := Session.apply_step_next h
    exact ⟨stepKeepsTheInvariant c.core d.core hcore hstep, fun hne => absurd hphase hne⟩
  | tickTimers =>
    cases h
    exact ⟨inv_tickTimers hcore, hnoWait⟩
  | setKey index p =>
    obtain rfl := Session.apply_setKey_next h
    exact ⟨inv_setKey hcore _ p, hnoWait⟩

/-! ### The key wait (rule R167) -/

theorem step_enters_wait {s t : State} (h : step s = .next t) (hw : s.wait = false) (hwt : t.wait = true) :
    (∀ k, s.key k = false) ∧ ∃ x, decodeWord (s.word s.pc.toNat) = .ok (.ldVxK x) := by
  obtain ⟨hw', -⟩ | ⟨-, -, i, hd, hexec⟩ := step_next_cases s t h
  · cases hw'.symm.trans hw
  · obtain ⟨x, rfl, hkey, -⟩ := exec_startsWait hd hw hwt hexec
    exact ⟨s.leastKey_eq_none_iff.1 hkey, x, hd⟩

theorem step_leaves_wait {s t : State} (h : step s = .next t) (hw : s.wait = true) (hwt : t.wait = false) :
    ∃ k, s.key k = true := by
  by_contra hkey
  have hkey : ∀ k, s.key k = false := by simpa using hkey
  cases (step_of_wait_of_no_key hw hkey).symm.trans h
  cases hw.symm.trans hwt

/-- Every event but a step and a reset leaves the key wait. -/
theorem Session.apply_wait_cases {c d : Session} {e : Event} (h : c.apply e = .next d) :
    e = .step ∨ e = .reset ∨ d.core.wait = c.core.wait := by
  cases e with
  | reset => exact .inr (.inl rfl)
  | loadImage bytes =>
    obtain ⟨-, -, rfl⟩ := Session.apply_loadImage_next h
    exact .inr (.inr rfl)
  | step => exact .inl rfl
  | tickTimers =>
    cases h
    exact .inr (.inr rfl)
  | setKey index p =>
    obtain rfl := Session.apply_setKey_next h
    exact .inr (.inr rfl)

/-- Settles O22: only a step and reset change `wait`, and a step by the poll or by the one instruction that waits. -/
theorem keyWaitEnteredAndLeftOnly : Obligations.KeyWaitEnteredAndLeftOnly := by
  refine fun c d e h => ⟨fun hw hwd => ?entered, fun hw hwd => ?left, fun hw he hkey => ?stays⟩
  case entered =>
    obtain rfl | rfl | hwait := Session.apply_wait_cases h
    · exact ⟨rfl, step_enters_wait (Session.apply_step_next h).1 hw hwd⟩
    · cases h
      cases hwd
    · cases hwd.symm.trans (hwait.trans hw)
  case left =>
    obtain rfl | rfl | hwait := Session.apply_wait_cases h
    · exact .inr ⟨rfl, step_leaves_wait (Session.apply_step_next h).1 hw hwd⟩
    · exact .inl rfl
    · cases hwd.symm.trans (hwait.trans hw)
  case stays =>
    subst he
    have hstep := (Session.apply_step_next h).1
    exact (Host.Outcome.next.inj ((step_of_wait_of_no_key hw hkey).symm.trans hstep)).symm

/-! ### A finished program (rule R178) -/

theorem finished_of_eq {s t : State} (h : Finished s) (hw : t.wait = s.wait) (hpc : t.pc = s.pc)
    (hread : ∀ a, t.read a = s.read a) : Finished t := by
  unfold Finished
  rw [hw, hpc, State.word_congr t s hread]
  exact h

theorem step_of_finished {s : State} (h : Finished s) : step s = .next s := by
  obtain ⟨hw, hpc, nnn, hword, hself⟩ := h
  have hd : decodeWord (s.word s.pc.toNat) = .ok (.jp nnn) := hword ▸ decodeWord_encode (i := .jp nnn) rfl
  have hexec : exec (.jp nnn) s.advance = .next (s.advance.setPc (nnn.setWidth 16)) := rfl
  rw [step_of_decode_ok s hw hpc _ hd, hexec, hself]
  rfl

/-- Settles O60: the jump puts back the `pc` it was fetched from, and ticks and keys touch neither `pc` nor memory. -/
theorem finishedStaysFinished : Obligations.FinishedStaysFinished := fun _ h =>
  ⟨step_of_finished h, finished_of_eq h rfl rfl fun _ => rfl, fun _ _ => finished_of_eq h rfl rfl fun _ => rfl⟩

end Sys2Proof.Machine
end

section
/-! PROOFS. Random and wait-for-key (rules R112, R143): what each meaning answers, and the statements on them. -/

namespace Sys2Proof.Machine

/-! ### Random (rule R112) -/

theorem getLsbD_and_of_mask {a m : Byte} {b : Nat} (h : m.getLsbD b = false) : (a &&& m).getLsbD b = false := by
  rw [BitVec.getLsbD_and, h, Bool.and_false]

/-- Settles O42: the meaning writes the masked byte, whatever the byte is, and counts it. -/
theorem randomMasksTheInput : Obligations.RandomMasksTheInput := by
  refine fun x nn => ⟨decodeWord_encode (i := .rnd x nn) rfl, fun s => ?_⟩
  have hread : ∀ k, (s.maskedRandom x nn (Config.randByte s.randIdx)).getV k =
      if k = x then Config.randByte s.randIdx &&& nn else s.getV k := fun k => s.getV_setV x k _
  exact ⟨_, rfl, rfl, hread, fun b hb => by rw [hread, if_pos rfl, getLsbD_and_of_mask hb]⟩

/-! ### Wait-for-key (rule R143) -/

theorem execLdVxK_of_leastKey (x : Nibble) {s : State} {k : Nibble} (h : s.leastKey = some k) :
    execLdVxK x s = .next (s.setV x (nibbleToByte k)) := by
  rw [execLdVxK, h]

theorem execLdVxK_of_no_key (x : Nibble) {s : State} (h : ∀ k, s.key k = false) :
    execLdVxK x s = .next ((s.startWait x).setPc s.pc0) := by
  rw [execLdVxK, s.leastKey_eq_none_iff.2 h]

/-- Settles O55: the key scan finds the least key or none, and the `pc` taken back is the fetch address. -/
theorem waitForKey : Obligations.WaitForKey := by
  intro x
  have hdecode : decodeWord (0xF#4 ++ x ++ 0x0A#8) = .ok (.ldVxK x) := decodeWord_encode (i := .ldVxK x) rfl
  refine ⟨hdecode, fun s k hk hless => ?_, fun s hkey => execLdVxK_of_no_key x hkey, fun s hw hpc hword hkey => ?_⟩
  · have hleast : s.leastKey = some k := (s.leastKey_eq_some_iff k).2 ⟨hk, hless⟩
    exact ⟨_, execLdVxK_of_leastKey x hleast, rfl, fun r => s.getV_setV x r _⟩
  · have hexec : exec (.ldVxK x) s.advance = .next ((s.advance.startWait x).setPc s.advance.pc0) :=
      execLdVxK_of_no_key x hkey
    rw [step_of_decode_ok s hw hpc _ (hword ▸ hdecode), hexec, s.advance_pc0]
    rfl

end Sys2Proof.Machine
end

section
/-! PROOFS. One instruction after another: call and return, a font address and the glyph read at it, a stored block loaded or fetched (rules R42, R90, R92, R122 to R125). -/

namespace Sys2Proof.Machine

/-! ### Call, then return (rules R90, R92) -/

/-- Settles O35: the return pops the slot the call filled, wherever it stands. -/
theorem callThenReturn : Obligations.CallThenReturn := by
  intro nnn s t p h
  obtain ⟨hsp, rfl⟩ := execCall_next h
  refine ⟨_, execRet_of_pos (Nat.succ_pos s.sp.val), ?_⟩
  simp

/-! ### The font address (rules R32, R122) -/

theorem toNat_fontAddr_lowNibble (b : Byte) : (fontAddr (lowNibble b)).toNat = 5 * (b.toNat % 16) := by
  rw [fontAddr_lowNibble, BitVec.toNat_ofNat]
  omega

/-- Settles O44: the five bytes lie in the font region, which reads as FONT_TABLE. -/
theorem fontAddressFindsTheGlyph : Obligations.FontAddressFindsTheGlyph := by
  refine fun x s hfont => ⟨_, rfl, fun r hr => ?_⟩
  rw [State.setI_i, toNat_fontAddr_lowNibble]
  exact hfont _ (by omega)

/-! ### A block of registers stored, then read (rules R42, R124, R125) -/

/-- After store-registers the byte at `i + k` is `v[k]`. -/
theorem execStoreRegs_read {x k : Nibble} {s t : State} (h : execStoreRegs x s = .next t) (hk : k ≤ x) :
    t.read (s.i.toNat + k.toNat) = s.getV k := by
  obtain ⟨-, -, rfl⟩ := execStoreRegs_next h
  have hlt : k.toNat < (s.regsUpTo x).length := (s.regsUpTo_length x).symm ▸ Nat.lt_succ_of_le hk
  rw [s.read_writeMem_inside _ hlt, s.regsUpTo_getElem]

/-- Settles O48: the load's bounds are the store's, and it reads the bytes the store wrote. -/
theorem storeThenLoadRegisters : Obligations.StoreThenLoadRegisters := by
  intro x s t u h hread hi
  obtain ⟨-, hbounds, ht⟩ := execStoreRegs_next h
  have hiu : u.i = s.i := hi.trans (ht ▸ rfl)
  refine ⟨u.loadRegsUpTo x, execLoadRegs_ok x (hiu.symm ▸ hbounds), fun k hk => ?_⟩
  have hload : (u.loadRegsUpTo x).getV k = u.read (u.i.toNat + k.toNat) := (u.getV_loadRegsUpTo x k).trans (if_pos hk)
  rw [hload, hiu, hread, execStoreRegs_read h hk]

/-- Settles O49: both bytes of the word lie in the stored block. -/
theorem storeIsSeenByFetch : Obligations.StoreIsSeenByFetch := by
  intro x k s t u h hk hread hpc
  obtain ⟨-, hbounds, -⟩ := execStoreRegs_next h
  have hnext : (k + 0x1#4).toNat = k.toNat + 1 := by bv_omega
  have hle : k + 0x1#4 ≤ x := by bv_omega
  have hfirst : u.read (s.i.toNat + k.toNat) = s.getV k :=
    (hread _).trans (execStoreRegs_read h (BitVec.le_of_lt hk))
  have hsecond : u.read (s.i.toNat + k.toNat + 1) = s.getV (k + 0x1#4) := by
    rw [Nat.add_assoc, ← hnext, hread, execStoreRegs_read h hle]
  have hpcle : u.pc.toNat ≤ 0xFFE := by bv_omega
  rw [u.fetch_ok hpcle, State.word, hpc, hfirst, hsecond]

end Sys2Proof.Machine
end

section
/-! PROOFS. Two draws of one sprite (rule R131). -/

namespace Sys2Proof.Machine

open Safety

/-- Two displays with the same pixels are the same. -/
theorem Display.ext_get {d e : Display} (h : ∀ y x, Display.get d y x = Display.get e y x) : d = e :=
  Vector.ext fun y hy => Vector.ext fun x hx => h ⟨y, hy⟩ ⟨x, hx⟩

/-- A sprite is fixed by its position, `i` and memory. -/
theorem spriteSets_congr {s t : State} {x y : Nibble} (hx : (t.getV x).toNat % 64 = (s.getV x).toNat % 64)
    (hy : (t.getV y).toNat % 32 = (s.getV y).toNat % 32) (hi : t.i = s.i) (hread : ∀ a, t.read a = s.read a)
    (n : Nibble) (py : Fin 32) (px : Fin 64) : SpriteSets t x y n py px ↔ SpriteSets s x y n py px := by
  simp only [SpriteSets, hx, hy, hi, hread]

/-- Settles O52: the second draw toggles the pixels the first one did, and finds lit those that were off. -/
theorem drawTwiceRestores : Obligations.DrawTwiceRestores := by
  intro x y n s t h hx hy
  obtain ⟨hbounds, ht⟩ := execDrw_next h
  have hi : t.i = s.i := ht ▸ rfl
  have hdisp : t.disp = (s.drawn x y n).1 := ht ▸ rfl
  have hsets := spriteSets_congr hx hy hi (fun _ => ht ▸ rfl) n
  refine ⟨_, execDrw_ok x y (hi.symm ▸ hbounds), Display.ext_get fun py px => ?pixels, ?flag⟩
  case pixels =>
    show Display.get (t.drawn x y n).1 py px = Display.get s.disp py px
    by_cases hset : SpriteSets s x y n py px
    · rw [State.drawn_get_of_spriteSets ((hsets py px).2 hset), hdisp, State.drawn_get_of_spriteSets hset, Bool.not_not]
    · rw [State.drawn_get_of_not_spriteSets (mt (hsets py px).1 hset), hdisp, State.drawn_get_of_not_spriteSets hset]
  case flag =>
    rw [flagReg, State.getV_setV_self, flagByte_eq_one_iff, t.drawn_collision]
    refine exists₂_congr fun py px => ?_
    rw [hsets, and_comm]
    refine and_congr_right fun hset => ?_
    rw [hdisp, State.drawn_get_of_spriteSets hset, Bool.not_eq_true']

end Sys2Proof.Machine
end
